-- ==== Sys2Proof/Config.lean ====
section
/-! DEFINITION. What the spec fixes for the block: the width of a cell and the bounds that follow from it (00 R5).
The spec leaves nothing else to an implementation inside the block (92, 93 section 1), so there is no free value here. -/

namespace Sys2Proof.Config

/-- `XLEN`, the width of a cell, of a queue or log entry, of `rb` and of every operand (00 R5).
DESIGN CHOICE, safe: R6 lets a model take it as an argument; this model takes the spec's own value (log entry 2). -/
def xlen : Nat := 64

/-- `MAXADDR`, the highest cell address and the highest value of `pc` (00 R5). -/
def maxAddr : Nat := 2 ^ (xlen - 1) - 1

/-- `MAXV`, the greatest cell value; `MAXADDR = MAXV` (00 R5). -/
def maxV : Int := (maxAddr : Int)

/-- `MINV`, the least cell value (00 R5). -/
def minV : Int := -((2 ^ (xlen - 1) : Nat) : Int)

end Sys2Proof.Config
end

