-- ==== Sys2Proof/Word.lean ====
section
/-! DEFINITION. The word of the machine: a cell value, an integer of the range `MINV .. MAXV` (00 R7). -/

namespace Sys2Proof

/-- A cell value, an operand or a result, as the mathematical integer it denotes (00 R7, 41 R83).
The range is not in the type: `InRange` states it and 10 R25 is an invariant of the machine (log entry 2). -/
abbrev Word := Int

/-- `InRange(v)`: `MINV <= v <= MAXV` (00 R7). -/
abbrev InRange (v : Int) : Prop := Config.minV ≤ v ∧ v ≤ Config.maxV

end Sys2Proof
end

