-- ==== Sys2Proof/Syntax.lean ====
section
/-! DEFINITION. The instructions as data: an operation and its parameters, each a mode with a raw value
(00 R2, 30 R50, R54, R57). One constructor of `Instr` for each row of spec/opcode_table.json. -/

namespace Sys2Proof

/-- The three addressing modes of a value parameter (30 R57, 40 R71). -/
inductive Mode where
  | position
  | immediate
  | relative
deriving DecidableEq, Repr

/-- The two addressing modes of a write-target parameter (40 R72); Immediate is rejected by the decoder (30 R62 case 3). -/
inductive TargetMode where
  | position
  | relative
deriving DecidableEq, Repr

/-- A value parameter: its mode and its raw value (30 R52). -/
structure Source where
  mode : Mode
  raw : Word
deriving DecidableEq, Repr

/-- A write-target parameter: its mode and its raw value (30 R52, R56). -/
structure Target where
  mode : TargetMode
  raw : Word
deriving DecidableEq, Repr

/-- The ten instructions, parameters in the order `p0`, `p1`, `p2` (30 R54, R64). -/
inductive Instr where
  /-- `ADD a, b, d` (41 R80). -/
  | add (a b : Source) (d : Target)
  /-- `MUL a, b, d` (41 R81). -/
  | mul (a b : Source) (d : Target)
  /-- `IN d` (42 R85). -/
  | inp (d : Target)
  /-- `OUT a` (42 R86). -/
  | out (a : Source)
  /-- `JNZ c, t` (43 R90). -/
  | jnz (c t : Source)
  /-- `JZ c, t` (43 R91). -/
  | jz (c t : Source)
  /-- `LT a, b, d` (44 R95). -/
  | lt (a b : Source) (d : Target)
  /-- `EQ a, b, d` (44 R96). -/
  | eq (a b : Source) (d : Target)
  /-- `ARB a` (45 R100). -/
  | arb (a : Source)
  /-- `HLT` (46 R103). -/
  | hlt
deriving DecidableEq, Repr

end Sys2Proof
end

