-- ==== Sys2Proof/WellFormed.lean ====
section
/-! DEFINITION. Which instructions a memory can hold: every raw value is a cell value (30 R52).
An Immediate write target cannot be written down in `Instr` at all (`TargetMode` has no such mode), so no check is needed for it. -/

namespace Sys2Proof

/-- The raw values of an instruction's parameters, in order: the contents of its parameter cells (30 R50, R52). -/
def Instr.raws : Instr → List Word
  | .add a b d | .mul a b d | .lt a b d | .eq a b d => [a.raw, b.raw, d.raw]
  | .inp d => [d.raw]
  | .out a | .arb a => [a.raw]
  | .jnz c t | .jz c t => [c.raw, t.raw]
  | .hlt => []

/-- An instruction is well formed when each of its raw values is in `MINV .. MAXV` (30 R52). -/
def Instr.wellFormed (i : Instr) : Bool := i.raws.all fun v => decide (InRange v)

end Sys2Proof
end

