-- ==== Sys2Proof/Decode.lean ====
section
/-! DEFINITION. The decoder of 30_encoding.md, total on every integer, and the encoder written from the same tables.
The fields are decimal digits (30 R51). `Form` is a decoded instruction word: by 30 R59 there are 99 of them. -/

namespace Sys2Proof

/-- The five sub-causes of `DecodeFault` (30 R62, 60 R151). -/
inductive DecodeCause where
  /-- `w mod 100` is 0 or in 10 .. 98 (case 1). -/
  | illegalOpcode
  /-- A mode digit of a parameter is in 3 .. 9 (case 2). -/
  | illegalMode
  /-- The write-target parameter has mode 1 (case 3). -/
  | immediateWriteTarget
  /-- `w < 0` (case 4). -/
  | negativeWord
  /-- A non-zero digit above the last mode digit (case 5). -/
  | excessDigits
deriving DecidableEq, Repr

/-- The ten operations, as the opcode field names them (30 R54). -/
inductive Opcode where
  | add | mul | inp | out | jnz | jz | lt | eq | arb | hlt
deriving DecidableEq, Repr

/-- The opcode numbers (30 R54). PRESUMED, unsafe for 1, 3 and 5 to 9, which the spec takes from general
knowledge (93 G1, log entry 8). -/
def Opcode.number : Opcode → Nat
  | .add => 1 | .mul => 2 | .inp => 3 | .out => 4 | .jnz => 5
  | .jz => 6 | .lt => 7 | .eq => 8 | .arb => 9 | .hlt => 99

/-- Every operation, in the order of the opcode table. -/
def Opcode.all : List Opcode := [.add, .mul, .inp, .out, .jnz, .jz, .lt, .eq, .arb, .hlt]

/-- The operation an opcode field selects; none for 0 and 10 to 98 (30 R54, R62 case 1). -/
def Opcode.ofNumber (n : Nat) : Option Opcode := Opcode.all.find? fun op => op.number == n

/-- `Arity(op)`, the number of parameters (30 R55). -/
def Opcode.arity : Opcode → Nat
  | .add | .mul | .lt | .eq => 3
  | .jnz | .jz => 2
  | .inp | .out | .arb => 1
  | .hlt => 0

/-- `WritePos(op)`, the index of the write-target parameter (30 R56). -/
def Opcode.writePos : Opcode → Option Nat
  | .add | .mul | .lt | .eq => some 2
  | .inp => some 0
  | .out | .jnz | .jz | .arb | .hlt => none

/-- The mode digits (30 R57). PRESUMED, unsafe for digit 2, which the spec takes from general knowledge (93 G2, log entry 8). -/
def Mode.digit : Mode → Nat
  | .position => 0 | .immediate => 1 | .relative => 2

/-- The mode a digit selects; none for 3 to 9 (30 R57). -/
def Mode.ofDigit (n : Nat) : Option Mode :=
  [Mode.position, .immediate, .relative].find? fun m => m.digit == n

/-- A target's mode among the three modes. -/
def TargetMode.mode : TargetMode → Mode
  | .position => .position
  | .relative => .relative

/-- The mode of a write target, or the decode fault of an Immediate one (30 R62 case 3). -/
def Mode.asTarget : Mode → Except DecodeCause TargetMode
  | .position => .ok .position
  | .immediate => .error .immediateWriteTarget
  | .relative => .ok .relative

/-- What the decoder reads from an instruction word: the operation and the mode of each parameter (30 R53). -/
inductive Form where
  | add (m0 m1 : Mode) (m2 : TargetMode)
  | mul (m0 m1 : Mode) (m2 : TargetMode)
  | inp (m0 : TargetMode)
  | out (m0 : Mode)
  | jnz (m0 m1 : Mode)
  | jz (m0 m1 : Mode)
  | lt (m0 m1 : Mode) (m2 : TargetMode)
  | eq (m0 m1 : Mode) (m2 : TargetMode)
  | arb (m0 : Mode)
  | hlt
deriving DecidableEq, Repr

/-- The operation of a form. -/
def Form.opcode : Form → Opcode
  | .add .. => .add | .mul .. => .mul | .inp _ => .inp | .out _ => .out | .jnz .. => .jnz
  | .jz .. => .jz | .lt .. => .lt | .eq .. => .eq | .arb _ => .arb | .hlt => .hlt

/-- The mode of each parameter, in order. -/
def Form.modes : Form → List Mode
  | .add m0 m1 m2 | .mul m0 m1 m2 | .lt m0 m1 m2 | .eq m0 m1 m2 => [m0, m1, m2.mode]
  | .inp m0 => [m0.mode]
  | .out m0 | .arb m0 => [m0]
  | .jnz m0 m1 | .jz m0 m1 => [m0, m1]
  | .hlt => []

/-- The loop of 30 R53: `n` mode digits of `r`, lowest first, and what is left above them. -/
def readModes : Nat → Int → Except DecodeCause (List Mode × Int)
  | 0, r => .ok ([], r)
  | n + 1, r =>
    match Mode.ofDigit (r % 10).toNat with
    | none => .error .illegalMode
    | some m =>
      match readModes n (r / 10) with
      | .error c => .error c
      | .ok (ms, rest) => .ok (m :: ms, rest)

/-- The form of an operation whose parameters have the modes `ms`; an absent mode is Position (30 R51).
An Immediate write target is the decoder's last fault (30 R53, R62 case 3). -/
def Form.ofModes (op : Opcode) (ms : List Mode) : Except DecodeCause Form :=
  let m0 := ms.getD 0 .position
  let m1 := ms.getD 1 .position
  let m2 := ms.getD 2 .position
  match op with
  | .add => m2.asTarget.map (Form.add m0 m1)
  | .mul => m2.asTarget.map (Form.mul m0 m1)
  | .inp => m0.asTarget.map Form.inp
  | .out => .ok (.out m0)
  | .jnz => .ok (.jnz m0 m1)
  | .jz => .ok (.jz m0 m1)
  | .lt => m2.asTarget.map (Form.lt m0 m1)
  | .eq => m2.asTarget.map (Form.eq m0 m1)
  | .arb => .ok (.arb m0)
  | .hlt => .ok .hlt

/-- `Decode(w)` (30 R53), the tests in the order of R53, which is their priority (60 R155). -/
def decodeWord (w : Int) : Except DecodeCause Form :=
  if w < 0 then .error .negativeWord
  else
    match Opcode.ofNumber (w % 100).toNat with
    | none => .error .illegalOpcode
    | some op =>
      match readModes op.arity (w / 100) with
      | .error c => .error c
      | .ok (ms, rest) => if rest ≠ 0 then .error .excessDigits else Form.ofModes op ms

/-- The instruction of a form whose parameter cells hold `raw 0`, `raw 1`, `raw 2`; only the first `arity` are read (30 R50, R52). -/
def Form.instr (raw : Nat → Word) : Form → Instr
  | .add m0 m1 m2 => .add ⟨m0, raw 0⟩ ⟨m1, raw 1⟩ ⟨m2, raw 2⟩
  | .mul m0 m1 m2 => .mul ⟨m0, raw 0⟩ ⟨m1, raw 1⟩ ⟨m2, raw 2⟩
  | .inp m0 => .inp ⟨m0, raw 0⟩
  | .out m0 => .out ⟨m0, raw 0⟩
  | .jnz m0 m1 => .jnz ⟨m0, raw 0⟩ ⟨m1, raw 1⟩
  | .jz m0 m1 => .jz ⟨m0, raw 0⟩ ⟨m1, raw 1⟩
  | .lt m0 m1 m2 => .lt ⟨m0, raw 0⟩ ⟨m1, raw 1⟩ ⟨m2, raw 2⟩
  | .eq m0 m1 m2 => .eq ⟨m0, raw 0⟩ ⟨m1, raw 1⟩ ⟨m2, raw 2⟩
  | .arb m0 => .arb ⟨m0, raw 0⟩
  | .hlt => .hlt

/-- Why a list of cells is no instruction: its word is illegal, or the list ends before the last parameter cell. -/
inductive DecodeReject where
  /-- The instruction word raises `DecodeFault` (30 R62). -/
  | illegal (c : DecodeCause)
  /-- The list is shorter than the instruction; a memory always has a next cell, so the machine never meets this. -/
  | truncated
deriving DecidableEq, Repr

/-- The instruction at the head of a list of cells, and the cells after it (30 R50, R58). -/
def decode : List Word → Except DecodeReject (Instr × List Word)
  | [] => .error .truncated
  | w :: cells =>
    match decodeWord w with
    | .error c => .error (.illegal c)
    | .ok f =>
      if cells.length < f.opcode.arity then .error .truncated
      else .ok (f.instr fun i => cells.getD i 0, cells.drop f.opcode.arity)

/-! ## The encoder -/

/-- The instruction word of a form: opcode, then the mode digits at weights 100, 1000, 10000 (30 R51, R64). -/
def Form.word (f : Form) : Word :=
  f.opcode.number + 100 * (f.modes.getD 0 .position).digit + 1000 * (f.modes.getD 1 .position).digit
    + 10000 * (f.modes.getD 2 .position).digit

/-- The form of an instruction. -/
def Instr.form : Instr → Form
  | .add a b d => .add a.mode b.mode d.mode
  | .mul a b d => .mul a.mode b.mode d.mode
  | .inp d => .inp d.mode
  | .out a => .out a.mode
  | .jnz c t => .jnz c.mode t.mode
  | .jz c t => .jz c.mode t.mode
  | .lt a b d => .lt a.mode b.mode d.mode
  | .eq a b d => .eq a.mode b.mode d.mode
  | .arb a => .arb a.mode
  | .hlt => .hlt

/-- The length of an instruction in cells, `1 + arity` (30 R50). -/
def Instr.length (i : Instr) : Nat := 1 + i.form.opcode.arity

/-- The cells of an instruction at ascending addresses: its word, then its raw values (30 R50). -/
def encode (i : Instr) : List Word := i.form.word :: i.raws

/-! ## Words given as bits -/

/-- The cell whose `XLEN` bits, two's complement, are the number `b` (00 R5). -/
def cellOfBits (b : Nat) : Word :=
  if b ≤ Config.maxAddr then (b : Int) else (b : Int) - ((2 ^ Config.xlen : Nat) : Int)

/-- The four cells of the longest instruction, cell `k` from bits `XLEN*k + XLEN - 1 .. XLEN*k` of `w`; bits above `nbits` are 0.
DESIGN CHOICE, unsafe: the spec numbers decimal digits, not bits (00 R7, log entry 11). -/
def tableCells (nbits w : Nat) : List Word :=
  (List.range 4).map fun k => cellOfBits (w % 2 ^ nbits / 2 ^ (Config.xlen * k) % 2 ^ Config.xlen)

/-- The instruction the decoder reads from an instruction given as bits. -/
def decodeTableWord (nbits w : Nat) : Option Instr :=
  match decode (tableCells nbits w) with
  | .ok (i, _) => some i
  | .error _ => none

end Sys2Proof
end

