-- ==== Sys2Proof/Machine/State.lean ====
section
/-! DEFINITION. The state of one Intcode core, exactly the six items of 10 R10, with the fault record of 60 R151,
the reasons a step of the model can stop, and the state after reset. -/

namespace Sys2Proof.Machine

/-- The memory: the listed cells, addresses strictly rising, no entry equal to what an unlisted address reads as (10 R20).
The unit is the cell, not the byte (20 R34, log entry 1). -/
abbrev Memory := List (Nat × Word)

/-- What an address that is not listed reads as: 0 (10 R20, 20 R31). -/
def unlisted : Word := 0

/-- The canonical form of a memory. -/
abbrev Memory.wf (m : Memory) : Prop :=
  m.Pairwise (fun x y => x.1 < y.1) ∧ ∀ e ∈ m, e.2 ≠ unlisted

/-- The four sub-causes of `AddressFault` (60 R151). -/
inductive AddressCause where
  /-- An effective address is below 0 (code 6). -/
  | negativeAddress
  /-- An effective address, or the address of a parameter cell, is above `MAXADDR` (code 7). -/
  | addressOutOfRange
  /-- A taken jump's target is below 0 (code 8). -/
  | negativeJumpTarget
  /-- The sequential next `pc` is above `MAXADDR` (code 9). -/
  | pcOutOfRange
deriving DecidableEq, Repr

/-- The ten causes of a fault: the three classes with their sub-causes (60 R150, R151). -/
inductive Cause where
  | decodeFault (sub : DecodeCause)
  | addressFault (sub : AddressCause)
  | arithmeticOverflow
deriving DecidableEq, Repr

/-- The three fault classes (60 R150). -/
inductive FaultClass where
  | decodeFault
  | addressFault
  | arithmeticOverflow
deriving DecidableEq, Repr

/-- The fault record (60 R151). `code`, `class` and `sub` are computed from the stored cause (log entry 7). -/
structure FaultRecord where
  cause : Cause
  /-- The address of the faulting instruction's word. -/
  pc : Nat
  /-- `mem[pc]`. -/
  word : Word
  /-- The offending value, an exact integer: it need not fit in a cell (40 R75). -/
  info : Int
deriving DecidableEq, Repr

/-- The `status` register (10 R17). -/
inductive Status where
  /-- No run has ended since reset. -/
  | ready
  /-- The last run ended at an Input instruction with `inq` empty. -/
  | awaitingInput
  /-- The last run ended at a Halt instruction. -/
  | halted
  /-- The last run was aborted by a fault. -/
  | faulted (record : FaultRecord)
deriving DecidableEq, Repr

/-- How an instruction ends a run instead of committing (47 R106): the three outcomes of `Step()` other than *continue*.
An instruction that ends so has changed no state but `status`. -/
inductive Stop where
  /-- A suspending `IN` (42 R85). -/
  | awaitingInput
  /-- A `HLT` (46 R103). -/
  | halted
  /-- `raise Fault(sub, info)` (00 R7, 60 R160). -/
  | fault (cause : Cause) (info : Int)
deriving DecidableEq, Repr

/-- The architectural state of one Intcode core (10 R10). -/
structure State where
  /-- The memory (10 R20). -/
  mem : Memory
  /-- The program counter (10 R12). -/
  pc : Nat
  /-- The relative base (10 R15). -/
  rb : Word
  /-- The input queue, oldest entry first (10 R18). -/
  inq : List Word
  /-- The output log, oldest entry first (10 R19). -/
  outlog : List Word
  /-- Why the last run stopped (10 R17). -/
  status : Status
deriving DecidableEq, Repr

/-- The reasons the model's step stops with a fault. The faults of 60 R151 are none of them: the spec describes their entry,
so they are next states with `status = Faulted(record)`. -/
inductive Fault where
  /-- Raised by `step` when `pc` is above `MAXADDR`, an address the spec says does not exist (20 R30).
  Safe: 10 R25 excludes such a state, and no run from a state that satisfies R25 reaches one (log entry 5). -/
  | pcOutsideMemory
deriving DecidableEq, Repr

/-- The reasons the model's step refuses. -/
inductive Refusal where
  /-- Raised by an arm of `exec` whose instruction has no meaning yet. Safe: nothing is claimed of it. -/
  | notModelled (mnemonic : String)
  /-- Raised by `step` when `status` is `Faulted`: the core refuses `RUN`, so no instruction executes (60 R161, R162).
  Safe: the spec gives the machine no move there (log entry 4). -/
  | faulted
deriving DecidableEq, Repr

/-- The machine right after reset (10 R24, 70 R180), with the empty image: there is no reset without an image, and the
empty one is legal (48 R121). DESIGN CHOICE, safe: which image (log entry 6). -/
def State.reset : State where
  mem := []
  pc := 0
  rb := 0
  inq := []
  outlog := []
  status := .ready

end Sys2Proof.Machine
end

