-- ==== Sys2Proof/Machine/Ops.lean ====
section
/-! DEFINITION. The named operations over memory and registers, the end of a run, the entry of a fault, and the reset that is
the only way out of one. -/

namespace Sys2Proof.Machine

/-! ## Memory -/

/-- `MemRead(a)` (20 R31). -/
def Memory.read : Memory → Nat → Word
  | [], _ => unlisted
  | (b, w) :: m, a => if a = b then w else Memory.read m a

/-- `MemWrite(a, v)` (20 R32), on the canonical form: writing what an unlisted address reads as removes the entry. -/
def Memory.write : Memory → Nat → Word → Memory
  | [], a, v => if v = unlisted then [] else [(a, v)]
  | (b, w) :: m, a, v =>
    if a < b then (if v = unlisted then (b, w) :: m else (a, v) :: (b, w) :: m)
    else if a = b then (if v = unlisted then m else (a, v) :: m)
    else (b, w) :: Memory.write m a v

/-- The memory that holds the cells of `img` from address `a` on, and nothing else (10 R20). -/
def Memory.ofImage (a : Nat) : List Word → Memory
  | [] => []
  | v :: img => if v = unlisted then Memory.ofImage (a + 1) img else (a, v) :: Memory.ofImage (a + 1) img

/-- The `n` cells from address `a` on. -/
def Memory.cells (m : Memory) (a : Nat) : Nat → List Word
  | 0 => []
  | n + 1 => m.read a :: Memory.cells m (a + 1) n

/-- Cells written at ascending addresses from `a` on; those beyond `MAXADDR` do not exist and are dropped. -/
def Memory.writeCells (m : Memory) (a : Nat) : List Word → Memory
  | [] => m
  | v :: vs => Memory.writeCells (if a ≤ Config.maxAddr then m.write a v else m) (a + 1) vs

/-! ## State -/

/-- `mem[a] <- v`. -/
def State.store (s : State) (a : Nat) (v : Word) : State := { s with mem := s.mem.write a v }

/-- `pc <- a`. -/
def State.setPc (s : State) (a : Nat) : State := { s with pc := a }

/-- `rb <- v`. -/
def State.setRb (s : State) (v : Word) : State := { s with rb := v }

/-- `inq <- q`. -/
def State.setInq (s : State) (q : List Word) : State := { s with inq := q }

/-- `Append(outlog, v)` (00 R7): the new value is the newest. -/
def State.append (s : State) (v : Word) : State := { s with outlog := s.outlog ++ [v] }

/-- `status <- st`. -/
def State.setStatus (s : State) (st : Status) : State := { s with status := st }

/-- Whether a fault is recorded (10 R17). -/
def State.isFaulted (s : State) : Bool :=
  match s.status with
  | .faulted _ => true
  | .ready | .awaitingInput | .halted => false

/-- Whether `pc` is an address (10 R12). -/
def State.pcValid (s : State) : Bool := decide (s.pc ≤ Config.maxAddr)

/-! ## Faults and the end of a run -/

/-- The class of a cause (60 R151). -/
def Cause.faultClass : Cause → FaultClass
  | .decodeFault _ => .decodeFault
  | .addressFault _ => .addressFault
  | .arithmeticOverflow => .arithmeticOverflow

/-- The code of a cause (60 R151). -/
def Cause.code : Cause → Nat
  | .decodeFault .illegalOpcode => 1
  | .decodeFault .illegalMode => 2
  | .decodeFault .immediateWriteTarget => 3
  | .decodeFault .negativeWord => 4
  | .decodeFault .excessDigits => 5
  | .addressFault .negativeAddress => 6
  | .addressFault .addressOutOfRange => 7
  | .addressFault .negativeJumpTarget => 8
  | .addressFault .pcOutOfRange => 9
  | .arithmeticOverflow => 10

/-- The `code` field of a record (60 R151). -/
def FaultRecord.code (r : FaultRecord) : Nat := r.cause.code

/-- The `class` field of a record (60 R151). -/
def FaultRecord.faultClass (r : FaultRecord) : FaultClass := r.cause.faultClass

/-- `record(f)`: the record of a fault raised in state `s` (60 R151). -/
def State.record (s : State) (cause : Cause) (info : Int) : FaultRecord where
  cause := cause
  pc := s.pc
  word := s.mem.read s.pc
  info := info

/-- Fault entry (60 R160): `status <- Faulted(record)`, and nothing else changes. -/
def State.takeFault (s : State) (cause : Cause) (info : Int) : State :=
  s.setStatus (.faulted (s.record cause info))

/-- The state a run ends in (47 R108): `status` alone changes (47 R106). -/
def State.endRun (s : State) : Stop → State
  | .awaitingInput => s.setStatus .awaitingInput
  | .halted => s.setStatus .halted
  | .fault cause info => s.takeFault cause info

/-- One turn of the loop of `Run()` (47 R108) as a step of the model: a committed instruction gives its state, an instruction
that ends the run gives the state the run ends in. -/
def State.conclude (s : State) : Except Stop State → Host.Outcome State Fault Refusal
  | .ok t => .next t
  | .error e => .next (s.endRun e)

/-- Whether an image is legal: at most `MAXADDR + 1` cells, each in range (48 R121). -/
def legalImage (img : List Word) : Bool :=
  decide (img.length ≤ Config.maxAddr + 1) && img.all fun v => decide (InRange v)

/-- Reset with the image `img` (70 R180): the effect of `CONSTRUCT(img)` and `REINIT(img)`, and the only return from a fault (60 R161). -/
def State.construct (img : List Word) : State where
  mem := Memory.ofImage 0 img
  pc := 0
  rb := 0
  inq := []
  outlog := []
  status := .ready

end Sys2Proof.Machine
end

