-- ==== Sys2Proof/Machine/Operands.lean ====
section
/-! DEFINITION. The parameter resolver (40_operand_resolution.md) and the address checks of the controller (47 R106, R107) and
of the jumps (43 R92). Each answers a value or the fault that ends the instruction. -/

namespace Sys2Proof.Machine

/-- `raise AddressFault(sub, info)`. -/
def addressFault {α : Type} (sub : AddressCause) (info : Int) : Except Stop α := .error (.fault (.addressFault sub) info)

/-- `CheckAddr(a)` (20 R33). -/
def checkAddr (a : Int) : Except Stop Nat :=
  if a < 0 then addressFault .negativeAddress a
  else if (Config.maxAddr : Int) < a then addressFault .addressOutOfRange a
  else .ok a.toNat

/-- The integer a parameter names before it is checked: the raw value, or the exact sum `raw + rb` (40 R70). -/
def rawAddress (m : TargetMode) (raw rb : Word) : Int :=
  match m with
  | .position => raw
  | .relative => raw + rb

/-- `EffAddr(mode, raw)` (40 R70). -/
def effAddr (m : TargetMode) (raw : Word) (s : State) : Except Stop Nat := checkAddr (rawAddress m raw s.rb)

/-- `ReadParam(mode, raw)` (40 R71). -/
def readParam (p : Source) (s : State) : Except Stop Word :=
  match p.mode with
  | .position => (effAddr .position p.raw s).map s.mem.read
  | .immediate => .ok p.raw
  | .relative => (effAddr .relative p.raw s).map s.mem.read

/-- `WriteAddr(mode, raw)` (40 R72). -/
def writeAddr (d : Target) (s : State) : Except Stop Nat := effAddr d.mode d.raw s

/-- The address test of phase 3 of `Step()` (47 R106): `n` parameter cells from address `a` on, ascending. -/
def checkParamCells (a : Nat) : Nat → Except Stop Unit
  | 0 => .ok ()
  | n + 1 => if Config.maxAddr < a then addressFault .addressOutOfRange a else checkParamCells (a + 1) n

/-- `CheckNextPc(t)` (47 R107). -/
def checkNextPc (t : Nat) : Except Stop Unit :=
  if Config.maxAddr < t then addressFault .pcOutOfRange t else .ok ()

/-- `JumpTo(t)` (43 R92): the new `pc`. -/
def jumpTarget (t : Word) : Except Stop Nat :=
  if t < 0 then addressFault .negativeJumpTarget t else .ok t.toNat

end Sys2Proof.Machine
end

