-- ==== Sys2Proof/Machine/Flags.lean ====
section
/-! DEFINITION. The machine has no flags (10 R16). What another machine would derive flags from stands here: the range test of a
result, the 1 or 0 a comparison stores, and the zero test of the jumps (41 R82, R83). -/

namespace Sys2Proof.Machine

/-- The range test of an exact result (41 R82): stored unchanged inside the range, `ArithmeticOverflow` outside it. -/
def checkResult (r : Int) : Except Stop Word :=
  if InRange r then .ok r else .error (.fault .arithmeticOverflow r)

/-- The cell value a comparison stores: exactly 1 or 0 (44 R95, R96). -/
def truthCell (b : Bool) : Word := if b then 1 else 0

/-- Signed less-than (44 R95). -/
def lessThan (v0 v1 : Word) : Word := truthCell (decide (v0 < v1))

/-- Equality of whole cells (44 R96). -/
def equalTo (v0 v1 : Word) : Word := truthCell (decide (v0 = v1))

/-- The condition of the jumps: true is any value but 0 (43 R90). -/
def nonZero (v : Word) : Bool := decide (v ≠ 0)

end Sys2Proof.Machine
end

