-- ==== Sys2Proof/Machine/Arithmetic.lean ====
section
/-! DEFINITION. `ADD` and `MUL` (41_arithmetic.md). In each family file an instruction has its rule's pseudocode as `…Step`, whose
error ends the run with `status` alone changed, and its meaning `exec…` as a step of the model. -/

namespace Sys2Proof.Machine

/-- The pseudocode of 41 R80. -/
def addStep (a b : Source) (d : Target) (s : State) : Except Stop State := do
  let v0 ← readParam a s
  let v1 ← readParam b s
  let wa ← writeAddr d s
  let r ← checkResult (v0 + v1)
  checkNextPc (s.pc + 4)
  return (s.store wa r).setPc (s.pc + 4)

/-- `ADD a, b, d` (41 R80). -/
def execAdd (a b : Source) (d : Target) (s : State) : Host.Outcome State Fault Refusal := s.conclude (addStep a b d s)

/-- The pseudocode of 41 R81. -/
def mulStep (a b : Source) (d : Target) (s : State) : Except Stop State := do
  let v0 ← readParam a s
  let v1 ← readParam b s
  let wa ← writeAddr d s
  let r ← checkResult (v0 * v1)
  checkNextPc (s.pc + 4)
  return (s.store wa r).setPc (s.pc + 4)

/-- `MUL a, b, d` (41 R81). -/
def execMul (a b : Source) (d : Target) (s : State) : Host.Outcome State Fault Refusal := s.conclude (mulStep a b d s)

end Sys2Proof.Machine
end

