-- ==== Sys2Proof/Machine/Compare.lean ====
section
/-! DEFINITION. `LT` and `EQ` (44_compare.md). The target is written whatever the result. -/

namespace Sys2Proof.Machine

/-- The pseudocode of 44 R95. -/
def ltStep (a b : Source) (d : Target) (s : State) : Except Stop State := do
  let v0 ← readParam a s
  let v1 ← readParam b s
  let wa ← writeAddr d s
  checkNextPc (s.pc + 4)
  return (s.store wa (lessThan v0 v1)).setPc (s.pc + 4)

/-- `LT a, b, d` (44 R95). -/
def execLt (a b : Source) (d : Target) (s : State) : Host.Outcome State Fault Refusal := s.conclude (ltStep a b d s)

/-- The pseudocode of 44 R96. -/
def eqStep (a b : Source) (d : Target) (s : State) : Except Stop State := do
  let v0 ← readParam a s
  let v1 ← readParam b s
  let wa ← writeAddr d s
  checkNextPc (s.pc + 4)
  return (s.store wa (equalTo v0 v1)).setPc (s.pc + 4)

/-- `EQ a, b, d` (44 R96). -/
def execEq (a b : Source) (d : Target) (s : State) : Host.Outcome State Fault Refusal := s.conclude (eqStep a b d s)

end Sys2Proof.Machine
end

