-- ==== Sys2Proof/Machine/Halt.lean ====
section
/-! DEFINITION. `HLT` (46_halt.md). -/

namespace Sys2Proof.Machine

/-- The pseudocode of 46 R103: the run ends, `pc` stays. -/
def hltStep (_ : State) : Except Stop State := .error .halted

/-- `HLT` (46 R103). -/
def execHlt (s : State) : Host.Outcome State Fault Refusal := s.conclude (hltStep s)

end Sys2Proof.Machine
end

