-- ==== Sys2Proof/Machine/InputOutput.lean ====
section
/-! DEFINITION. `IN` and `OUT` (42_io.md). -/

namespace Sys2Proof.Machine

/-- The pseudocode of 42 R85: the address is resolved before the queue is tested (40 R73). -/
def inpStep (d : Target) (s : State) : Except Stop State := do
  let wa ← writeAddr d s
  match s.inq with
  | [] => .error .awaitingInput
  | v :: rest =>
    checkNextPc (s.pc + 2)
    return ((s.setInq rest).store wa v).setPc (s.pc + 2)

/-- `IN d` (42 R85). -/
def execInp (d : Target) (s : State) : Host.Outcome State Fault Refusal := s.conclude (inpStep d s)

/-- The pseudocode of 42 R86. -/
def outStep (a : Source) (s : State) : Except Stop State := do
  let v0 ← readParam a s
  checkNextPc (s.pc + 2)
  return (s.append v0).setPc (s.pc + 2)

/-- `OUT a` (42 R86). -/
def execOut (a : Source) (s : State) : Host.Outcome State Fault Refusal := s.conclude (outStep a s)

end Sys2Proof.Machine
end

