-- ==== Sys2Proof/Machine/Jumps.lean ====
section
/-! DEFINITION. `JNZ` and `JZ` (43_jumps.md). Both parameters are resolved whether or not the jump is taken (40 R73). -/

namespace Sys2Proof.Machine

/-- The pseudocode of 43 R90. -/
def jnzStep (c t : Source) (s : State) : Except Stop State := do
  let v0 ← readParam c s
  let v1 ← readParam t s
  if nonZero v0 then
    let target ← jumpTarget v1
    return s.setPc target
  else
    checkNextPc (s.pc + 3)
    return s.setPc (s.pc + 3)

/-- `JNZ c, t` (43 R90). -/
def execJnz (c t : Source) (s : State) : Host.Outcome State Fault Refusal := s.conclude (jnzStep c t s)

/-- The pseudocode of 43 R91. -/
def jzStep (c t : Source) (s : State) : Except Stop State := do
  let v0 ← readParam c s
  let v1 ← readParam t s
  if nonZero v0 then
    checkNextPc (s.pc + 3)
    return s.setPc (s.pc + 3)
  else
    let target ← jumpTarget v1
    return s.setPc target

/-- `JZ c, t` (43 R91). -/
def execJz (c t : Source) (s : State) : Host.Outcome State Fault Refusal := s.conclude (jzStep c t s)

end Sys2Proof.Machine
end

