-- ==== Sys2Proof/Machine/RelativeBase.lean ====
section
/-! DEFINITION. `ARB` (45_relbase.md). -/

namespace Sys2Proof.Machine

/-- The pseudocode of 45 R100; in Relative mode the operand is read through the old `rb`. -/
def arbStep (a : Source) (s : State) : Except Stop State := do
  let v0 ← readParam a s
  let r ← checkResult (s.rb + v0)
  checkNextPc (s.pc + 2)
  return (s.setRb r).setPc (s.pc + 2)

/-- `ARB a` (45 R100). -/
def execArb (a : Source) (s : State) : Host.Outcome State Fault Refusal := s.conclude (arbStep a s)

end Sys2Proof.Machine
end

