-- ==== Sys2Proof/Machine/Dispatch.lean ====
section
/-! DEFINITION. One arm for each instruction (47 R106 phase 5). -/

namespace Sys2Proof.Machine

def exec (i : Instr) (s : State) : Host.Outcome State Fault Refusal :=
  match i with
  -- arithmetic (41)
  | .add a b d => Sys2Proof.Machine.execAdd a b d s
  | .mul a b d => Sys2Proof.Machine.execMul a b d s
  -- input and output (42)
  | .inp d => Sys2Proof.Machine.execInp d s
  | .out a => Sys2Proof.Machine.execOut a s
  -- control transfer (43)
  | .jnz c t => Sys2Proof.Machine.execJnz c t s
  | .jz c t => Sys2Proof.Machine.execJz c t s
  -- comparison (44)
  | .lt a b d => Sys2Proof.Machine.execLt a b d s
  | .eq a b d => Sys2Proof.Machine.execEq a b d s
  -- relative base (45)
  | .arb a => Sys2Proof.Machine.execArb a s
  -- halt (46)
  | .hlt => Sys2Proof.Machine.execHlt s

end Sys2Proof.Machine
end

