-- ==== Sys2Proof/Machine/Fetch.lean ====
section
/-! DEFINITION. Phases 1 to 3 of `Step()` (47 R106): fetch of the word, decoding, and the parameter cells. -/

namespace Sys2Proof.Machine

/-- Phase 2: `Decode(w)`, its fault carrying the word (30 R53, 60 R151). -/
def decodeAt (w : Word) : Except Stop Form :=
  match decodeWord w with
  | .ok f => .ok f
  | .error c => .error (.fault (.decodeFault c) w)

/-- The instruction at `pc`, or the fault that phases 1 to 3 raise (47 R106). -/
def fetch (s : State) : Except Stop Instr := do
  let f ← decodeAt (s.mem.read s.pc)
  checkParamCells (s.pc + 1) f.opcode.arity
  return f.instr fun i => s.mem.read (s.pc + 1 + i)

/-- The cells of an instruction given as bits, stored at `pc` and after it. -/
def placeWord (s : State) (nbits w : Nat) : State :=
  { s with mem := s.mem.writeCells s.pc (tableCells nbits w) }

end Sys2Proof.Machine
end

