-- ==== Sys2Proof/Machine/Step.lean ====
section
/-! DEFINITION. The step of the model: one turn of the loop of `Run()` (47 R106, R108), the host's `RUN` taken as given
(log entry 3). -/

namespace Sys2Proof.Machine

/-- One step. On a faulted core no instruction executes (60 R161, R162); a `pc` above `MAXADDR` is no address (10 R25). -/
def step (s : State) : Host.Outcome State Fault Refusal :=
  if s.isFaulted then .refused .faulted
  else if s.pcValid then
    match fetch s with
    | .error e => .next (s.endRun e)
    | .ok i => exec i s
  else .fault .pcOutsideMemory

/-- The state with an instruction given as bits stored where `step` fetches next; nothing else changes (log entry 11). -/
def State.withFetchWord (s : State) (nbits w : Nat) : State := placeWord s nbits w

end Sys2Proof.Machine
end

