-- ==== Sys2Proof/Machine/Controller.lean ====
section
/-! DEFINITION. The run-to-suspension controller (47_run_controller.md): `Step()` with its four outcomes, and `Run()`.
`step` alone cannot tell a committed instruction that changes nothing (`JNZ #1, #0` at 0) from the end of a run; `Step()` can. -/

namespace Sys2Proof.Machine

/-- Phases 4 and 5 of `Step()` (47 R106): each instruction's own pseudocode. -/
def instrStep (i : Instr) (s : State) : Except Stop State :=
  match i with
  | .add a b d => addStep a b d s
  | .mul a b d => mulStep a b d s
  | .inp d => inpStep d s
  | .out a => outStep a s
  | .jnz c t => jnzStep c t s
  | .jz c t => jzStep c t s
  | .lt a b d => ltStep a b d s
  | .eq a b d => eqStep a b d s
  | .arb a => arbStep a s
  | .hlt => hltStep s

/-- `Step()` (47 R106): a committed instruction's state (*continue*), or how the instruction ended the run. -/
def coreStep (s : State) : Except Stop State := do
  let i ← fetch s
  instrStep i s

/-- What `RUN` responds with (47 R108). -/
inductive RunResult where
  | awaitingInput
  | halted
  | fault (record : FaultRecord)
deriving DecidableEq, Repr

/-- The result of a run that the instruction at `pc` of `s` ends (47 R108). -/
def Stop.result (s : State) : Stop → RunResult
  | .awaitingInput => .awaitingInput
  | .halted => .halted
  | .fault cause info => .fault (s.record cause info)

/-- The status a run that ends with this result leaves (47 R108). -/
def RunResult.status : RunResult → Status
  | .awaitingInput => .awaitingInput
  | .halted => .halted
  | .fault record => .faulted record

/-- `Run()` (47 R108) under fuel: its result and final state, or none when the fuel is exhausted first (47 R111). -/
def run : Nat → State → Option (RunResult × State)
  | 0, _ => none
  | n + 1, s =>
    match coreStep s with
    | .ok t => run n t
    | .error e => some (e.result s, s.endRun e)

/-- The run from `s` ends with result `r` in state `t` (47 R112). -/
def RunEnds (s : State) (r : RunResult) (t : State) : Prop := ∃ n, run n s = some (r, t)

end Sys2Proof.Machine
end

