-- ==== Sys2Proof/Machine/Commands.lean ====
section
/-! DEFINITION. The host commands of one core (48_host_interface.md): arguments, response, effect. -/

namespace Sys2Proof.Machine

/-- The host commands that take no instruction step (48 R120). Addresses and values arrive as integers, so that an argument
out of range can be presented and refused (48 R128). -/
inductive Operation where
  /-- `CONSTRUCT(img)` and `REINIT(img)` (48 R121). -/
  | reinit (img : List Int)
  /-- `READ(a)` (48 R123). -/
  | read (a : Int)
  /-- `WRITE(a, v)` (48 R124). -/
  | write (a v : Int)
  /-- `OUTPUTS` (48 R125). -/
  | outputs
  /-- `TAKE_LAST_OUTPUT` (48 R126). -/
  | takeLastOutput
  /-- `DRAIN_OUTPUTS` (48 R127). -/
  | drainOutputs
  /-- `ADD_INPUT(v)` (48 R129). -/
  | addInput (v : Int)
  /-- `CLONE` (48 R130). -/
  | clone
  /-- `STATUS` (48 R132). -/
  | status
deriving DecidableEq, Repr

/-- The ten host commands (48 R120): `RUN` (48 R122) and the operations. -/
inductive Command where
  | run
  | op (o : Operation)
deriving DecidableEq, Repr

/-- Why a command is refused. -/
inductive Refused where
  /-- `status` is `Faulted` (60 R162). -/
  | faulted
  /-- An argument is out of range (48 R121, R128). -/
  | argument
deriving DecidableEq, Repr

/-- What the response port carries (48 R134). None of it is a core: `CLONE` answers done, and the core it creates is a `created` one
(48 R130, log entry 18). So no response shows `pc` or `rb`, but for the `pc` of a fault record (60 R168). -/
inductive Response where
  | done
  | refused (why : Refused)
  | value (v : Word)
  /-- `TAKE_LAST_OUTPUT` on an empty log (48 R126). -/
  | noValue
  | values (vs : List Word)
  | result (r : RunResult)
  | status (st : Status)
deriving DecidableEq, Repr

/-- Whether a command is accepted in status `Faulted` (60 R162). -/
def Operation.allowedFaulted : Operation → Bool
  | .reinit _ | .status => true
  | .read _ | .write _ _ | .outputs | .takeLastOutput | .drainOutputs | .addInput _ | .clone => false

/-- Whether a core in this state accepts an operation (60 R162). -/
def Operation.accepted (o : Operation) (s : State) : Bool := !s.isFaulted || o.allowedFaulted

/-- Whether a host's address argument is an address (48 R128). -/
def validAddress (a : Int) : Bool := decide (0 ≤ a ∧ a ≤ (Config.maxAddr : Int))

/-- The refusal of a command with an argument out of range (48 R128): no effect. -/
def refuseArgument (s : State) : Response × State := (.refused .argument, s)

/-- `CONSTRUCT(img)`, `REINIT(img)` (48 R121). -/
def reinitOp (img : List Int) (s : State) : Response × State :=
  if legalImage img then (.done, State.construct img) else refuseArgument s

/-- `READ(a)` (48 R123). -/
def readOp (a : Int) (s : State) : Response × State :=
  if validAddress a then (.value (s.mem.read a.toNat), s) else refuseArgument s

/-- `WRITE(a, v)` (48 R124). -/
def writeOp (a v : Int) (s : State) : Response × State :=
  if validAddress a ∧ InRange v then (.done, s.store a.toNat v) else refuseArgument s

/-- `TAKE_LAST_OUTPUT` (48 R126). -/
def takeLastOp (s : State) : Response × State :=
  match s.outlog.getLast? with
  | none => (.noValue, s)
  | some v => (.value v, { s with outlog := s.outlog.dropLast })

/-- `DRAIN_OUTPUTS` (48 R127). -/
def drainOp (s : State) : Response × State := (.values s.outlog, { s with outlog := [] })

/-- `ADD_INPUT(v)` (48 R129). -/
def addInputOp (v : Int) (s : State) : Response × State :=
  if InRange v then (.done, s.setInq (s.inq ++ [v])) else refuseArgument s

/-- An operation's response and effect on a core that accepts it. -/
def perform (o : Operation) (s : State) : Response × State :=
  match o with
  | .reinit img => reinitOp img s
  | .read a => readOp a s
  | .write a v => writeOp a v s
  | .outputs => (.values s.outlog, s)
  | .takeLastOutput => takeLastOp s
  | .drainOutputs => drainOp s
  | .addInput v => addInputOp v s
  | .clone => (.done, s)
  | .status => (.status s.status, s)

/-- An operation as the core answers it: refused on a faulted core unless it is `REINIT` or `STATUS` (60 R162).
DESIGN CHOICE, safe: this refusal is tested before the arguments (log entry 13). -/
def operate (o : Operation) (s : State) : Response × State :=
  if o.accepted s then perform o s else (.refused .faulted, s)

/-- The cores an operation brings into being beside the core it is issued to: for an accepted `CLONE`, one whose state is a copy of
the whole state (48 R130). -/
def Operation.created (o : Operation) (s : State) : List State :=
  match o with
  | .clone => if o.accepted s then [s] else []
  | .reinit _ | .read _ | .write _ _ | .outputs | .takeLastOutput | .drainOutputs | .addInput _ | .status => []

/-- The cores a command brings into being (48 R130). -/
def Command.created (c : Command) (s : State) : List State :=
  match c with
  | .run => []
  | .op o => o.created s

/-- `RUN` under fuel (48 R122): refused on a faulted core, no answer when the fuel is exhausted first (47 R111). -/
def runCommand (fuel : Nat) (s : State) : Option (Response × State) :=
  if s.isFaulted then some (.refused .faulted, s)
  else (run fuel s).map fun (r, t) => (.result r, t)

/-- A host command: its response and the state after it; none stands for no response (47 R111). -/
def command (fuel : Nat) (c : Command) (s : State) : Option (Response × State) :=
  match c with
  | .run => runCommand fuel s
  | .op o => some (operate o s)

end Sys2Proof.Machine
end

