-- ==== Sys2Proof/Machine/System.lean ====
section
/-! DEFINITION. Several cores under one host (48 R130, R131, 60 R167), and one core behind the abstract ports of 48 R134. -/

namespace Sys2Proof.Machine

/-- The cores a host holds. DESIGN CHOICE, safe: a core has no identifier of its own (48 R131); its place in the list is the
host's name for it (log entry 12). -/
abbrev System := List State

/-- `CONSTRUCT(img)` of a new core (48 R121): refused, and no core created, for an image that is not legal. -/
def System.construct (img : List Int) (cores : System) : Response × System :=
  if legalImage img then (.done, cores ++ [State.construct img]) else (.refused .argument, cores)

/-- A host command to core `k`, with the core it creates, if any, appended (48 R130); none where there is no such core or the command gives no response. -/
def System.command (fuel k : Nat) (c : Command) (cores : System) : Option (Response × System) :=
  match cores[k]? with
  | none => none
  | some s => (Machine.command fuel c s).map fun (r, t) => (r, cores.set k t ++ c.created s)

/-- A core with the `busy` port (48 R134), true from the acceptance of `RUN` until its response. -/
structure Port where
  core : State
  busy : Bool
deriving DecidableEq, Repr

/-- How the command port answers at once. -/
inductive Answer where
  /-- The command is not accepted: a run is in progress (48 R120, R134). -/
  | notAccepted
  /-- `RUN` is accepted; its response comes when the run ends. -/
  | accepted
  | response (r : Response)
deriving DecidableEq, Repr

/-- A command presented at the port (48 R120, R134). -/
def Port.present (c : Command) (p : Port) : Answer × Port :=
  if p.busy then (.notAccepted, p)
  else
    match c with
    | .run => if p.core.isFaulted then (.response (.refused .faulted), p) else (.accepted, ⟨p.core, true⟩)
    | .op o => (.response (operate o p.core).1, ⟨(operate o p.core).2, false⟩)

/-- The ports of the core that a command presented here brings into being: idle, beside this one (48 R130). -/
def Port.created (c : Command) (p : Port) : List Port :=
  if p.busy then [] else (c.created p.core).map fun copy => ⟨copy, false⟩

/-- One turn of the loop of `Run()` while a run is in progress (47 R108); the response of `RUN` when the run ends. -/
def Port.turn (p : Port) : Option RunResult × Port :=
  if p.busy then
    match coreStep p.core with
    | .ok t => (none, ⟨t, true⟩)
    | .error e => (some (e.result p.core), ⟨p.core.endRun e, false⟩)
  else (none, p)

end Sys2Proof.Machine
end

