-- ==== Sys2Proof/Safety.lean ====
section
/-! DEFINITION. What counts as a legal state and as a safe run, in the terms the statements use. -/

namespace Sys2Proof

open Machine

/-- Every listed cell lies at an address and holds a cell value (10 R25). -/
abbrev Machine.Memory.inBounds (m : Memory) : Prop := ∀ e ∈ m, e.1 ≤ Config.maxAddr ∧ InRange e.2

/-- The invariant of 10 R25, with the canonical form of memory (10 R20). -/
structure Machine.State.Inv (s : State) : Prop where
  pc : s.pc ≤ Config.maxAddr
  rb : InRange s.rb
  memWf : s.mem.wf
  mem : s.mem.inBounds
  inq : ∀ v ∈ s.inq, InRange v
  outlog : ∀ v ∈ s.outlog, InRange v

/-- A recorded fault addresses the instruction at `pc` and carries its word (60 R151, R160). -/
def Machine.State.recordMatches (s : State) : Prop :=
  ∀ r, s.status = .faulted r → r.pc = s.pc ∧ r.word = s.mem.read s.pc

/-- The state after a fault raised in `s`: its record, and nothing else new (60 R151, R160). The statements use this and not
`takeFault`, so that they say what fault entry does. -/
abbrev Machine.State.withFault (s : State) (cause : Cause) (info : Int) : State :=
  { s with status := .faulted { cause := cause, pc := s.pc, word := s.mem.read s.pc, info := info } }

/-- `n` steps from `s` are safe: each gives a next state with no fault recorded. -/
def safeFor : Nat → State → Prop
  | 0, _ => True
  | n + 1, s => ∃ t, step s = .next t ∧ t.isFaulted = false ∧ safeFor n t

end Sys2Proof
end

