-- ==== Sys2Proof/Certificates/Slice0/Obligations.lean ====
section
/-! DEFINITION. The statements for the provers. Each docstring names the rule of spec/ it formalises. -/

/-! ## Terms the statements use -/

namespace Sys2Proof

/-- The legal instruction words of an operation, as 30 R59 lists them. -/
def legalWords : Opcode → List Int
  | .hlt => [99]
  | .inp => [3, 203]
  | .out => [4, 104, 204]
  | .arb => [9, 109, 209]
  | .jnz => [5, 105, 205, 1005, 1105, 1205, 2005, 2105, 2205]
  | .jz => [6, 106, 206, 1006, 1106, 1206, 2006, 2106, 2206]
  | .add => [1, 101, 201, 1001, 1101, 1201, 2001, 2101, 2201] ++ [20001, 20101, 20201, 21001, 21101, 21201, 22001, 22101, 22201]
  | .mul => [2, 102, 202, 1002, 1102, 1202, 2002, 2102, 2202] ++ [20002, 20102, 20202, 21002, 21102, 21202, 22002, 22102, 22202]
  | .lt => [7, 107, 207, 1007, 1107, 1207, 2007, 2107, 2207] ++ [20007, 20107, 20207, 21007, 21107, 21207, 22007, 22107, 22207]
  | .eq => [8, 108, 208, 1008, 1108, 1208, 2008, 2108, 2208] ++ [20008, 20108, 20208, 21008, 21108, 21208, 22008, 22108, 22208]

/-- The digit of a mode in the instruction word (30 R57). -/
def Mode.numeral : Mode → Int
  | .position => 0 | .immediate => 1 | .relative => 2

/-- The digit of a target's mode in the instruction word (30 R57). -/
def TargetMode.numeral : TargetMode → Int
  | .position => 0 | .relative => 2

/-- A value parameter with Position rewritten as Relative for the relative base `b` (40 R76). -/
def Source.toRelative (b : Int) (p : Source) : Source :=
  match p.mode with
  | .position => ⟨.relative, p.raw - b⟩
  | .immediate | .relative => p

/-- A write target with Position rewritten as Relative for the relative base `b` (40 R76). -/
def Target.toRelative (b : Int) (d : Target) : Target :=
  match d.mode with
  | .position => ⟨.relative, d.raw - b⟩
  | .relative => d

/-- What 10 R24 says of a state after reset with the image `img`, item by item. -/
def Machine.State.holdsAfterReset (img : List Word) (t : State) : Prop :=
  t.pc = 0 ∧ t.rb = 0 ∧ t.inq = [] ∧ t.outlog = [] ∧ t.status = .ready ∧
  (∀ a, (h : a < img.length) → t.mem.read a = img[a]) ∧ (∀ a, img.length ≤ a → t.mem.read a = 0)

/-- An instruction with every Position parameter rewritten as Relative for the relative base `b` (40 R76). -/
def Instr.toRelative (k : Int) : Instr → Instr
  | .add a b d => .add (a.toRelative k) (b.toRelative k) (d.toRelative k)
  | .mul a b d => .mul (a.toRelative k) (b.toRelative k) (d.toRelative k)
  | .inp d => .inp (d.toRelative k)
  | .out a => .out (a.toRelative k)
  | .jnz c t => .jnz (c.toRelative k) (t.toRelative k)
  | .jz c t => .jz (c.toRelative k) (t.toRelative k)
  | .lt a b d => .lt (a.toRelative k) (b.toRelative k) (d.toRelative k)
  | .eq a b d => .eq (a.toRelative k) (b.toRelative k) (d.toRelative k)
  | .arb a => .arb (a.toRelative k)
  | .hlt => .hlt

end Sys2Proof

open Sys2Proof Sys2Proof.Machine

/-! `wf`, wherever a statement assumes it or concludes it, is the canonical form of the model's memory (log entry 1): an invariant that
`StepKeepsInvariant` and `CommandsKeepInvariant` state, not a rule of the spec. -/

/-! ## Reset and the invariant -/

/-- 10 R24: what every piece of state holds after `REINIT(img)` and after construction. That `CONSTRUCT` appends the new core to the
list of cores is the model's choice (log entry 12). -/
def Obligations.ResetLoadsImageAndClearsTheRest : Prop :=
  (∀ (img : List Word) (s t : State), operate (.reinit img) s = (.done, t) → t.holdsAfterReset img) ∧
  (∀ (img : List Word) (cores cores' : System), System.construct img cores = (.done, cores') →
    ∃ t, cores' = cores ++ [t] ∧ t.holdsAfterReset img)

/-- 10 R24, 48 R121: the reset state is the reset with the empty image, which is legal (the model's choice of image, log entry 6),
and it satisfies the invariant of 10 R25. -/
def Obligations.ResetStateSatisfiesInvariant : Prop :=
  (∀ s : State, operate (.reinit []) s = (.done, State.reset)) ∧ State.reset.Inv

/-- 10 R25: every step keeps the invariant, from every state that meets it. -/
def Obligations.StepKeepsInvariant : Prop :=
  ∀ s t : State, s.Inv → step s = .next t → t.Inv

/-- 10 R25: every host command, a whole run included, keeps the invariant. -/
def Obligations.CommandsKeepInvariant : Prop :=
  ∀ (fuel : Nat) (c : Command) (s : State) (r : Response) (t : State), s.Inv → command fuel c s = some (r, t) → t.Inv

/-- 10 R20: how a memory is stored cannot be told from what it holds; two memories in the canonical form that read alike are equal.
The list is the model's (log entry 1). -/
def Obligations.CanonicalMemoriesThatReadAlikeAreEqual : Prop :=
  ∀ m m' : Memory, m.wf → m'.wf → (∀ a, m.read a = m'.read a) → m = m'

/-! ## Encoding -/

/-- A few instruction words of 95 section 3, written out from 30 R51, R54 and R57. -/
def Obligations.SampleWordsDecodeAsListed : Prop :=
  decodeWord 1002 = .ok (.mul .position .immediate .position) ∧
  decodeWord 21201 = .ok (.add .relative .immediate .relative) ∧
  decodeWord 22207 = .ok (.lt .relative .relative .relative) ∧
  decodeWord 20008 = .ok (.eq .position .position .relative) ∧
  decodeWord 203 = .ok (.inp .relative) ∧ decodeWord 104 = .ok (.out .immediate) ∧
  decodeWord 2105 = .ok (.jnz .immediate .relative) ∧ decodeWord 1006 = .ok (.jz .position .immediate) ∧
  decodeWord 209 = .ok (.arb .relative) ∧ decodeWord 99 = .ok .hlt

/-- 30 R50, R51: decoding an encoded instruction gives it back, whatever cells follow, and a well-formed one is encoded in cell
values (30 R52). -/
def Obligations.DecodeInvertsEncode : Prop :=
  ∀ (i : Instr) (rest : List Word), i.wellFormed = true →
    decode (encode i ++ rest) = .ok (i, rest) ∧ (∀ c ∈ encode i, InRange c) ∧ (encode i).length = i.length

/-- 30 R53, R59: cells that decode are the encoding of what they decode to, so an instruction has one encoding. -/
def Obligations.EncodeInvertsDecode : Prop :=
  ∀ (cells rest : List Word) (i : Instr), decode cells = .ok (i, rest) → cells = encode i ++ rest

/-- 30 R59: exactly the 99 listed words are legal, each of the operation it is listed under; every other word raises `DecodeFault`
when it is fetched as an instruction word. -/
def Obligations.LegalWordsAreExactlyTheNinetyNine : Prop :=
  (Opcode.all.flatMap legalWords).length = 99 ∧ (Opcode.all.flatMap legalWords).Nodup ∧
  (∀ (op : Opcode) (w : Int), (∃ f, decodeWord w = .ok f ∧ f.opcode = op) ↔ w ∈ legalWords op) ∧
  (∀ w : Int, w ∉ Opcode.all.flatMap legalWords → ∃ c, decodeWord w = .error c ∧
    ∀ s : State, s.isFaulted = false → s.pc ≤ Config.maxAddr → s.mem.read s.pc = w →
      step s = .next (s.withFault (.decodeFault c) w))

/-- 30 R62: the five cases of an illegal word at `pc`, each with its sub-cause; `pc` stays and nothing but `status` changes.
Where several cases hold, the conditions of each clause leave the one of R53's order. -/
def Obligations.IllegalWordsRaiseDecodeFault : Prop :=
  ∀ (s : State) (w : Int), s.isFaulted = false → s.pc ≤ Config.maxAddr → s.mem.read s.pc = w →
    (w < 0 → step s = .next (s.withFault (.decodeFault .negativeWord) w)) ∧
    (0 ≤ w → (w % 100 = 0 ∨ (10 ≤ w % 100 ∧ w % 100 ≤ 98)) →
      step s = .next (s.withFault (.decodeFault .illegalOpcode) w)) ∧
    (∀ op : Opcode, 0 ≤ w → w % 100 = op.number →
      ((∃ k < op.arity, 3 ≤ w / 10 ^ (2 + k) % 10) → step s = .next (s.withFault (.decodeFault .illegalMode) w)) ∧
      ((∀ k < op.arity, w / 10 ^ (2 + k) % 10 ≤ 2) →
        (w / 10 ^ (2 + op.arity) ≠ 0 → step s = .next (s.withFault (.decodeFault .excessDigits) w)) ∧
        (w / 10 ^ (2 + op.arity) = 0 → ∀ k, op.writePos = some k → w / 10 ^ (2 + k) % 10 = 1 →
          step s = .next (s.withFault (.decodeFault .immediateWriteTarget) w))))

/-! ## Fetch and step -/

/-- 47 R106: where the cells at `pc` decode to an instruction that lies within the address space, a step is `exec` of it. -/
def Obligations.StepRunsDecodedInstruction : Prop :=
  ∀ (s : State) (n : Nat) (i : Instr) (rest : List Word), s.isFaulted = false →
    decode (s.mem.cells s.pc n) = .ok (i, rest) → s.pc + i.length ≤ Config.maxAddr + 1 → step s = exec i s

/-- 47 R106 phase 3, 60 R151 code 7: an instruction whose last parameter cell would lie above `MAXADDR` faults with the first
address that does not exist. -/
def Obligations.ParameterCellsBeyondTheTopFault : Prop :=
  ∀ (s : State) (f : Form), s.isFaulted = false → s.pc ≤ Config.maxAddr → decodeWord (s.mem.read s.pc) = .ok f →
    Config.maxAddr < s.pc + f.opcode.arity →
    step s = .next (s.withFault (.addressFault .addressOutOfRange) (Config.maxAddr + 1))

/-- 93 section 1, 47 R106: every instruction answers a next state, and so does a step wherever `pc` is an address and no fault is
recorded; on a faulted core no instruction executes (60 R161), the model's step refusing there (log entry 4). -/
def Obligations.StepAnswersNextUnlessFaulted : Prop :=
  (∀ (i : Instr) (s : State), ∃ t, exec i s = .next t) ∧
  (∀ s : State, s.isFaulted = false → s.pc ≤ Config.maxAddr → ∃ t, step s = .next t) ∧
  (∀ s : State, s.isFaulted = true → step s = .refused .faulted)

/-- 20 R42: the word an `ADD` stores at the next instruction's address is the word that is decoded there next. -/
def Obligations.StoredWordIsFetchedNext : Prop :=
  ∀ (a b : Source) (d : Target) (s : State) (v0 v1 : Int), s.mem.wf → s.isFaulted = false →
    readParam a s = .ok v0 → readParam b s = .ok v1 → writeAddr d s = .ok (s.pc + 4) → InRange (v0 + v1) →
    ∃ t, exec (.add a b d) s = .next t ∧ t.pc = s.pc + 4 ∧
      (∀ c, decodeWord (v0 + v1) = .error c → step t = .next (t.withFault (.decodeFault c) (v0 + v1))) ∧
      (∀ f, decodeWord (v0 + v1) = .ok f → s.pc + 4 + f.opcode.arity ≤ Config.maxAddr →
        ∃ i : Instr, i.form = f ∧ step t = exec i t)

/-! ## The resolver -/

/-- 40 R70: the effective address of a Position or Relative parameter, and its two faults. -/
def Obligations.EffectiveAddressIsCheckedNotWrapped : Prop :=
  ∀ (m : TargetMode) (raw : Int) (s : State) (a : Int), a = (if m = .position then raw else raw + s.rb) →
    (a < 0 → effAddr m raw s = .error (.fault (.addressFault .negativeAddress) a)) ∧
    ((Config.maxAddr : Int) < a → effAddr m raw s = .error (.fault (.addressFault .addressOutOfRange) a)) ∧
    (0 ≤ a → a ≤ Config.maxAddr → effAddr m raw s = .ok a.toNat)

/-- 40 R71, R72: the value of a value parameter in each mode, and the address of a write target, by the pseudocode of each rule.
Mode 1 is no `TargetMode`, as it never reaches `WriteAddr`; the decoder's fault there is in `IllegalWordsRaiseDecodeFault`. -/
def Obligations.ParametersResolveByMode : Prop :=
  ∀ (raw : Int) (s : State),
    readParam ⟨.immediate, raw⟩ s = .ok raw ∧
    (∀ m : TargetMode, ∀ a, effAddr m raw s = .ok a →
      readParam ⟨m.mode, raw⟩ s = .ok (s.mem.read a) ∧ writeAddr ⟨m, raw⟩ s = .ok a) ∧
    (∀ m : TargetMode, ∀ e, effAddr m raw s = .error e →
      readParam ⟨m.mode, raw⟩ s = .error e ∧ writeAddr ⟨m, raw⟩ s = .error e)

/-- 40 R73: all parameters are resolved, in order, before the effect; the first that fails is the fault the instruction takes,
also where its value would go unused (a jump not taken, an empty queue). -/
def Obligations.ParametersResolveEagerlyInOrder : Prop :=
  ∀ (s : State) (c : Cause) (info : Int),
    (∀ op : Source → Source → Target → Instr, op = .add ∨ op = .mul ∨ op = .lt ∨ op = .eq → ∀ a b d,
      (readParam a s = .error (.fault c info) ∨
        (∃ v0, readParam a s = .ok v0 ∧ readParam b s = .error (.fault c info)) ∨
        (∃ v0 v1, readParam a s = .ok v0 ∧ readParam b s = .ok v1 ∧ writeAddr d s = .error (.fault c info))) →
      exec (op a b d) s = .next (s.withFault c info)) ∧
    (∀ op : Source → Source → Instr, op = .jnz ∨ op = .jz → ∀ a b,
      (readParam a s = .error (.fault c info) ∨ (∃ v0, readParam a s = .ok v0 ∧ readParam b s = .error (.fault c info))) →
      exec (op a b) s = .next (s.withFault c info)) ∧
    (∀ d, writeAddr d s = .error (.fault c info) → exec (.inp d) s = .next (s.withFault c info)) ∧
    (∀ op : Source → Instr, op = .out ∨ op = .arb → ∀ a,
      readParam a s = .error (.fault c info) → exec (op a) s = .next (s.withFault c info))

/-- 40 R76: rewriting every Position parameter `k` as Relative `k - rb` changes nothing an instruction does. -/
def Obligations.RelativeRewritingIsEquivalent : Prop :=
  ∀ (i : Instr) (s : State), exec (i.toRelative s.rb) s = exec i s

/-! ## The instructions -/

/-- 41 R80: `ADD`, its encoding, its result and its two own faults. -/
def Obligations.AddStoresTheSum : Prop :=
  (∀ (a b : Source) (d : Target), decode [1 + 100 * a.mode.numeral + 1000 * b.mode.numeral + 10000 * d.mode.numeral,
    a.raw, b.raw, d.raw] = .ok (.add a b d, [])) ∧
  ∀ (a b : Source) (d : Target) (s : State) (v0 v1 : Int) (wa : Nat), s.mem.wf →
    readParam a s = .ok v0 → readParam b s = .ok v1 → writeAddr d s = .ok wa →
    (InRange (v0 + v1) → s.pc + 4 ≤ Config.maxAddr → ∃ t, exec (.add a b d) s = .next t ∧
      t.mem.read wa = v0 + v1 ∧ (∀ x, x ≠ wa → t.mem.read x = s.mem.read x) ∧ t.mem.wf ∧
      t = { s with mem := t.mem, pc := s.pc + 4 }) ∧
    (¬ InRange (v0 + v1) → exec (.add a b d) s = .next (s.withFault .arithmeticOverflow (v0 + v1))) ∧
    (InRange (v0 + v1) → Config.maxAddr < s.pc + 4 →
      exec (.add a b d) s = .next (s.withFault (.addressFault .pcOutOfRange) (s.pc + 4)))

/-- 41 R81: `MUL`, its encoding, its result and its two own faults. -/
def Obligations.MulStoresTheProduct : Prop :=
  (∀ (a b : Source) (d : Target), decode [2 + 100 * a.mode.numeral + 1000 * b.mode.numeral + 10000 * d.mode.numeral,
    a.raw, b.raw, d.raw] = .ok (.mul a b d, [])) ∧
  ∀ (a b : Source) (d : Target) (s : State) (v0 v1 : Int) (wa : Nat), s.mem.wf →
    readParam a s = .ok v0 → readParam b s = .ok v1 → writeAddr d s = .ok wa →
    (InRange (v0 * v1) → s.pc + 4 ≤ Config.maxAddr → ∃ t, exec (.mul a b d) s = .next t ∧
      t.mem.read wa = v0 * v1 ∧ (∀ x, x ≠ wa → t.mem.read x = s.mem.read x) ∧ t.mem.wf ∧
      t = { s with mem := t.mem, pc := s.pc + 4 }) ∧
    (¬ InRange (v0 * v1) → exec (.mul a b d) s = .next (s.withFault .arithmeticOverflow (v0 * v1))) ∧
    (InRange (v0 * v1) → Config.maxAddr < s.pc + 4 →
      exec (.mul a b d) s = .next (s.withFault (.addressFault .pcOutOfRange) (s.pc + 4)))

/-- 42 R85: `IN`, its encoding, the value taken from the front of the queue, the suspension that changes nothing but `status`, and
the address fault raised before the queue is tested. -/
def Obligations.InTakesTheFrontOrSuspends : Prop :=
  (∀ d : Target, decode [3 + 100 * d.mode.numeral, d.raw] = .ok (.inp d, [])) ∧
  decodeWord 103 = .error .immediateWriteTarget ∧
  (∀ (d : Target) (s : State) (wa : Nat), s.mem.wf → writeAddr d s = .ok wa →
    (s.inq = [] → exec (.inp d) s = .next { s with status := .awaitingInput }) ∧
    (∀ v rest, s.inq = v :: rest → s.pc + 2 ≤ Config.maxAddr → ∃ t, exec (.inp d) s = .next t ∧
      t.mem.read wa = v ∧ (∀ x, x ≠ wa → t.mem.read x = s.mem.read x) ∧ t.mem.wf ∧
      t = { s with mem := t.mem, inq := rest, pc := s.pc + 2 }) ∧
    (s.inq ≠ [] → Config.maxAddr < s.pc + 2 →
      exec (.inp d) s = .next (s.withFault (.addressFault .pcOutOfRange) (s.pc + 2)))) ∧
  (∀ (d : Target) (s : State) (c : Cause) (info : Int), writeAddr d s = .error (.fault c info) →
    exec (.inp d) s = .next (s.withFault c info))

/-- 42 R86: `OUT`, its encoding and its result. -/
def Obligations.OutAppendsTheValue : Prop :=
  (∀ a : Source, decode [4 + 100 * a.mode.numeral, a.raw] = .ok (.out a, [])) ∧
  ∀ (a : Source) (s : State) (v0 : Int), readParam a s = .ok v0 →
    (s.pc + 2 ≤ Config.maxAddr → exec (.out a) s = .next { s with outlog := s.outlog ++ [v0], pc := s.pc + 2 }) ∧
    (Config.maxAddr < s.pc + 2 → exec (.out a) s = .next (s.withFault (.addressFault .pcOutOfRange) (s.pc + 2)))

/-- 43 R90: `JNZ`, its encoding, the jump taken and not taken, and their faults; the target is resolved either way. -/
def Obligations.JnzJumpsWhenNotZero : Prop :=
  (∀ c t : Source, decode [5 + 100 * c.mode.numeral + 1000 * t.mode.numeral, c.raw, t.raw] = .ok (.jnz c t, [])) ∧
  (∀ (c t : Source) (s : State) (v0 v1 : Int), readParam c s = .ok v0 → readParam t s = .ok v1 →
    (v0 ≠ 0 → 0 ≤ v1 → exec (.jnz c t) s = .next { s with pc := v1.toNat }) ∧
    (v0 ≠ 0 → v1 < 0 → exec (.jnz c t) s = .next (s.withFault (.addressFault .negativeJumpTarget) v1)) ∧
    (v0 = 0 → s.pc + 3 ≤ Config.maxAddr → exec (.jnz c t) s = .next { s with pc := s.pc + 3 }) ∧
    (v0 = 0 → Config.maxAddr < s.pc + 3 →
      exec (.jnz c t) s = .next (s.withFault (.addressFault .pcOutOfRange) (s.pc + 3)))) ∧
  (∀ (c t : Source) (s : State) (v0 : Int) (cause : Cause) (info : Int), readParam c s = .ok v0 →
    readParam t s = .error (.fault cause info) → exec (.jnz c t) s = .next (s.withFault cause info))

/-- 43 R91: `JZ`, its encoding, the jump taken and not taken, and their faults; the target is resolved either way. -/
def Obligations.JzJumpsWhenZero : Prop :=
  (∀ c t : Source, decode [6 + 100 * c.mode.numeral + 1000 * t.mode.numeral, c.raw, t.raw] = .ok (.jz c t, [])) ∧
  (∀ (c t : Source) (s : State) (v0 v1 : Int), readParam c s = .ok v0 → readParam t s = .ok v1 →
    (v0 = 0 → 0 ≤ v1 → exec (.jz c t) s = .next { s with pc := v1.toNat }) ∧
    (v0 = 0 → v1 < 0 → exec (.jz c t) s = .next (s.withFault (.addressFault .negativeJumpTarget) v1)) ∧
    (v0 ≠ 0 → s.pc + 3 ≤ Config.maxAddr → exec (.jz c t) s = .next { s with pc := s.pc + 3 }) ∧
    (v0 ≠ 0 → Config.maxAddr < s.pc + 3 →
      exec (.jz c t) s = .next (s.withFault (.addressFault .pcOutOfRange) (s.pc + 3)))) ∧
  (∀ (c t : Source) (s : State) (v0 : Int) (cause : Cause) (info : Int), readParam c s = .ok v0 →
    readParam t s = .error (.fault cause info) → exec (.jz c t) s = .next (s.withFault cause info))

/-- 44 R95: `LT`, its encoding and its result, 1 or 0, written either way; the comparison is signed. -/
def Obligations.LtStoresOneOrZero : Prop :=
  (∀ (a b : Source) (d : Target), decode [7 + 100 * a.mode.numeral + 1000 * b.mode.numeral + 10000 * d.mode.numeral,
    a.raw, b.raw, d.raw] = .ok (.lt a b d, [])) ∧
  ∀ (a b : Source) (d : Target) (s : State) (v0 v1 : Int) (wa : Nat), s.mem.wf →
    readParam a s = .ok v0 → readParam b s = .ok v1 → writeAddr d s = .ok wa →
    (s.pc + 4 ≤ Config.maxAddr → ∃ t, exec (.lt a b d) s = .next t ∧
      (v0 < v1 → t.mem.read wa = 1) ∧ (v1 ≤ v0 → t.mem.read wa = 0) ∧
      (∀ x, x ≠ wa → t.mem.read x = s.mem.read x) ∧ t.mem.wf ∧ t = { s with mem := t.mem, pc := s.pc + 4 }) ∧
    (Config.maxAddr < s.pc + 4 → exec (.lt a b d) s = .next (s.withFault (.addressFault .pcOutOfRange) (s.pc + 4)))

/-- 44 R96: `EQ`, its encoding and its result, 1 or 0, written either way. -/
def Obligations.EqStoresOneOrZero : Prop :=
  (∀ (a b : Source) (d : Target), decode [8 + 100 * a.mode.numeral + 1000 * b.mode.numeral + 10000 * d.mode.numeral,
    a.raw, b.raw, d.raw] = .ok (.eq a b d, [])) ∧
  ∀ (a b : Source) (d : Target) (s : State) (v0 v1 : Int) (wa : Nat), s.mem.wf →
    readParam a s = .ok v0 → readParam b s = .ok v1 → writeAddr d s = .ok wa →
    (s.pc + 4 ≤ Config.maxAddr → ∃ t, exec (.eq a b d) s = .next t ∧
      (v0 = v1 → t.mem.read wa = 1) ∧ (v0 ≠ v1 → t.mem.read wa = 0) ∧
      (∀ x, x ≠ wa → t.mem.read x = s.mem.read x) ∧ t.mem.wf ∧ t = { s with mem := t.mem, pc := s.pc + 4 }) ∧
    (Config.maxAddr < s.pc + 4 → exec (.eq a b d) s = .next (s.withFault (.addressFault .pcOutOfRange) (s.pc + 4)))

/-- 45 R100: `ARB`, its encoding, its result and its two own faults; the operand is resolved with the old `rb`. -/
def Obligations.ArbAddsToTheRelativeBase : Prop :=
  (∀ a : Source, decode [9 + 100 * a.mode.numeral, a.raw] = .ok (.arb a, [])) ∧
  ∀ (a : Source) (s : State) (v0 : Int), readParam a s = .ok v0 →
    (InRange (s.rb + v0) → s.pc + 2 ≤ Config.maxAddr →
      exec (.arb a) s = .next { s with rb := s.rb + v0, pc := s.pc + 2 }) ∧
    (¬ InRange (s.rb + v0) → exec (.arb a) s = .next (s.withFault .arithmeticOverflow (s.rb + v0))) ∧
    (InRange (s.rb + v0) → Config.maxAddr < s.pc + 2 →
      exec (.arb a) s = .next (s.withFault (.addressFault .pcOutOfRange) (s.pc + 2)))

/-- 46 R103: `HLT`, its only word, its effect, `status` alone, and the run that ends so again whatever was run before. -/
def Obligations.HltEndsTheRunInPlace : Prop :=
  (∀ w : Int, decodeWord w = .ok .hlt ↔ w = 99) ∧
  (∀ w : Int, 0 ≤ w → w % 100 = 99 → w ≠ 99 → decodeWord w = .error .excessDigits) ∧
  (∀ s : State, exec .hlt s = .next { s with status := .halted }) ∧
  (∀ (s : State) (n : Nat), s.isFaulted = false → s.mem.read s.pc = 99 →
    command (n + 1) .run s = some (.result .halted, { s with status := .halted }))

/-! ## Frames and whole-machine rules -/

/-- 41 R80, R81, 44 R95, R96, 47 R106: what the three-parameter instructions leave unchanged, whatever next state they answer. -/
def Obligations.ThreeParameterInstructionFrame : Prop :=
  ∀ op : Source → Source → Target → Instr, op = .add ∨ op = .mul ∨ op = .lt ∨ op = .eq →
    ∀ (a b : Source) (d : Target) (s t : State), exec (op a b d) s = .next t →
      t.rb = s.rb ∧ t.inq = s.inq ∧ t.outlog = s.outlog ∧
      (t.status = s.status ∨ ∃ r, t = { s with status := .faulted r }) ∧
      (∀ wa, writeAddr d s = .ok wa → ∀ x, x ≠ wa → t.mem.read x = s.mem.read x) ∧
      (∀ e, writeAddr d s = .error e → ∀ x, t.mem.read x = s.mem.read x)

/-- 42 R85, R87: what `IN` leaves unchanged; the queue loses its front entry or nothing. -/
def Obligations.InputInstructionFrame : Prop :=
  ∀ (d : Target) (s t : State), exec (.inp d) s = .next t →
    t.rb = s.rb ∧ t.outlog = s.outlog ∧ (t.inq = s.inq ∨ ∃ v, s.inq = v :: t.inq) ∧
    (t.status = s.status ∨ t = { s with status := .awaitingInput } ∨ ∃ r, t = { s with status := .faulted r }) ∧
    (∀ wa, writeAddr d s = .ok wa → ∀ x, x ≠ wa → t.mem.read x = s.mem.read x) ∧
    (∀ e, writeAddr d s = .error e → ∀ x, t.mem.read x = s.mem.read x)

/-- 42 R86, 43 R90, R91, 45 R100, 46 R103: what the instructions that store nothing leave unchanged: all of memory, the queue, and
`rb` and the log but for `ARB` and `OUT`. -/
def Obligations.NonStoringInstructionFrame : Prop :=
  ∀ (i : Instr) (s t : State),
    (∃ a, i = .out a) ∨ (∃ c g, i = .jnz c g) ∨ (∃ c g, i = .jz c g) ∨ (∃ a, i = .arb a) ∨ i = .hlt → exec i s = .next t →
      (∀ x, t.mem.read x = s.mem.read x) ∧ t.inq = s.inq ∧
      ((∀ a, i ≠ .arb a) → t.rb = s.rb) ∧ ((∀ a, i ≠ .out a) → t.outlog = s.outlog) ∧
      (t.status = s.status ∨ (i = .hlt ∧ t = { s with status := .halted }) ∨ ∃ r, t = { s with status := .faulted r })

/-- 42 R87, 46 R104: only `IN` takes from the queue, only `OUT` changes the log, only `IN` ends a run with `AwaitingInput`, and only
`HLT` ends one with `Halted`. -/
def Obligations.QueuesAndRunEndsBelongToTheirInstructions : Prop :=
  ∀ (i : Instr) (s t : State), exec i s = .next t →
    (t.inq ≠ s.inq → ∃ d, i = .inp d) ∧ (t.outlog ≠ s.outlog → ∃ a, i = .out a) ∧
    (t.status = .awaitingInput → s.status ≠ .awaitingInput → ∃ d, i = .inp d) ∧
    (t.status = .halted → s.status ≠ .halted → i = .hlt)

/-- 45 R101, 10 R15: `ARB` is the only instruction that writes `rb`, and `REINIT` the only operation, to 0. -/
def Obligations.RelativeBaseIsWrittenOnlyByArbAndReinit : Prop :=
  (∀ (i : Instr) (s t : State), exec i s = .next t → t.rb ≠ s.rb → ∃ a, i = .arb a) ∧
  (∀ (o : Operation) (s t : State) (r : Response), operate o s = (r, t) → t.rb ≠ s.rb → (∃ img, o = .reinit img) ∧ t.rb = 0)

/-- 10 R13: what `pc` is after each instruction, committed, suspended, halted or faulted. -/
def Obligations.PcAfterEachInstruction : Prop :=
  ∀ (i : Instr) (s t : State), s.isFaulted = false → exec i s = .next t →
    (t.isFaulted = true → t.pc = s.pc) ∧
    (t.isFaulted = false →
      match i with
      | .add _ _ _ | .mul _ _ _ | .lt _ _ _ | .eq _ _ _ => t.pc = s.pc + 4
      | .out _ | .arb _ => t.pc = s.pc + 2
      | .inp _ => (s.inq ≠ [] → t.pc = s.pc + 2) ∧ (s.inq = [] → t.pc = s.pc)
      | .jnz c g => ∃ v0 v1, readParam c s = .ok v0 ∧ readParam g s = .ok v1 ∧
          (v0 ≠ 0 → (t.pc : Int) = v1) ∧ (v0 = 0 → t.pc = s.pc + 3)
      | .jz c g => ∃ v0 v1, readParam c s = .ok v0 ∧ readParam g s = .ok v1 ∧
          (v0 = 0 → (t.pc : Int) = v1) ∧ (v0 ≠ 0 → t.pc = s.pc + 3)
      | .hlt => t.pc = s.pc)

/-- 60 R153, R154: which instructions can raise which faults once they are decoded. -/
def Obligations.FaultCausesBelongToTheirInstructions : Prop :=
  ∀ (i : Instr) (s t : State) (r : FaultRecord), s.isFaulted = false → exec i s = .next t → t.status = .faulted r →
    (r.cause = .arithmeticOverflow → (∃ a b d, i = .add a b d) ∨ (∃ a b d, i = .mul a b d) ∨ ∃ a, i = .arb a) ∧
    (r.cause = .addressFault .negativeJumpTarget → (∃ c g, i = .jnz c g) ∨ ∃ c g, i = .jz c g) ∧
    (∀ c, r.cause ≠ .decodeFault c) ∧ i ≠ .hlt

/-- 47 R107: `PcOutOfRange` is raised only where the instruction's last cell is the last cell of memory, and reports `MAXADDR + 1`. -/
def Obligations.PcOutOfRangeOnlyInTheLastCell : Prop :=
  ∀ (s t : State) (r : FaultRecord), step s = .next t → t.status = .faulted r → r.cause = .addressFault .pcOutOfRange →
    r.info = Config.maxAddr + 1 ∧ ∃ f, decodeWord (s.mem.read s.pc) = .ok f ∧ s.pc + f.opcode.arity = Config.maxAddr

/-! ## Faults -/

/-- 60 R151: the code and class of each cause. -/
def Obligations.FaultCodesAndClasses : Prop :=
  ∀ (pc : Nat) (word : Int) (info : Int) (code : Nat) (cls : FaultClass) (cause : Cause),
    (code, cls, cause) ∈ [(1, FaultClass.decodeFault, Cause.decodeFault .illegalOpcode),
      (2, .decodeFault, .decodeFault .illegalMode), (3, .decodeFault, .decodeFault .immediateWriteTarget),
      (4, .decodeFault, .decodeFault .negativeWord), (5, .decodeFault, .decodeFault .excessDigits)] ++
      [(6, FaultClass.addressFault, Cause.addressFault .negativeAddress), (7, .addressFault, .addressFault .addressOutOfRange),
      (8, .addressFault, .addressFault .negativeJumpTarget), (9, .addressFault, .addressFault .pcOutOfRange),
      (10, .arithmeticOverflow, .arithmeticOverflow)] →
    (FaultRecord.mk cause pc word info).code = code ∧ (FaultRecord.mk cause pc word info).faultClass = cls

/-- 60 R160: a fault changes `status` alone, its record addresses the faulting instruction, the run ends and `RUN` responds with it. -/
def Obligations.FaultEntryIsPrecise : Prop :=
  ∀ (s t : State) (r : FaultRecord), step s = .next t → t.status = .faulted r →
    t = { s with status := .faulted r } ∧ r.pc = s.pc ∧ r.word = s.mem.read s.pc ∧
    ∀ n, command (n + 1) .run s = some (.result (.fault r), t)

/-- 60 R162: a faulted core refuses every command but `REINIT` and `STATUS` and changes nothing; only `REINIT` clears the fault.
That an operation whose argument is out of range too is refused for the fault, and not for the argument, is the model's choice
(log entry 13). -/
def Obligations.FaultedCoreRefusesAllButReinitAndStatus : Prop :=
  ∀ (s : State) (fuel : Nat), s.isFaulted = true →
    command fuel .run s = some (.refused .faulted, s) ∧
    (∀ o : Operation, (∀ img, o ≠ .reinit img) → o ≠ .status → command fuel (.op o) s = some (.refused .faulted, s)) ∧
    command fuel (.op .status) s = some (.status s.status, s) ∧
    (∀ img, legalImage img = true → command fuel (.op (.reinit img)) s = some (.done, State.construct img)) ∧
    (∀ (c : Command) (r : Response) (t : State), command fuel c s = some (r, t) → t ≠ s → ∃ img, c = .op (.reinit img))

/-- 60 R151, R160, R162: a recorded fault addresses the core's `pc` and carries the word there; every step and every command keeps that. -/
def Obligations.FaultRecordMatchesTheCore : Prop :=
  (∀ s t : State, step s = .next t → t.recordMatches) ∧
  (∀ (fuel : Nat) (c : Command) (s : State) (r : Response) (t : State),
    s.recordMatches → command fuel c s = some (r, t) → t.recordMatches)

/-! ## Runs -/

/-- 47 R108: a step is one turn of the loop of `Run()`: it commits an instruction and the run goes on, or ends the run with `status`
as its result says and nothing else changed. -/
def Obligations.StepIsOneTurnOfTheRun : Prop :=
  ∀ s : State, s.isFaulted = false → s.pc ≤ Config.maxAddr →
    (∃ t, step s = .next t ∧ t.status = s.status ∧ ∀ n, run (n + 1) s = run n t) ∨
    (∃ r, step s = .next { s with status := r.status } ∧ ∀ n, run (n + 1) s = some (r, { s with status := r.status }))

/-- 47 R112: at the end of a run `pc` addresses the instruction that ended it and `status` records the result. -/
def Obligations.RunEndsAtTheInstructionThatEndedIt : Prop :=
  ∀ (n : Nat) (s : State) (r : RunResult) (t : State), run n s = some (r, t) →
    t.status = r.status ∧
    (r = .halted → t.mem.read t.pc = 99) ∧
    (r = .awaitingInput → t.inq = [] ∧ ∃ d, fetch t = .ok (.inp d)) ∧
    (∀ record, r = .fault record → record.pc = t.pc ∧ record.word = t.mem.read t.pc)

/-- 47 R109, R110: `RUN` after `Halted`, or after `AwaitingInput` with no input added, gives the same result at once and changes nothing. -/
def Obligations.EndedRunRepeatsItsResult : Prop :=
  ∀ (n : Nat) (s : State) (r : RunResult) (t : State), run n s = some (r, t) → r = .halted ∨ r = .awaitingInput →
    ∀ m, command (m + 1) .run t = some (.result r, t)

/-- 47 R109: after `AwaitingInput`, one `ADD_INPUT` and a step complete exactly the pending Input instruction. The step
stands for the first turn of the next `RUN`, which the model reads from the spec by inference (log entry 3, DEDUCED). -/
def Obligations.ResumeCompletesThePendingInput : Prop :=
  ∀ (n : Nat) (s t : State) (v : Int), s.Inv → run n s = some (.awaitingInput, t) → InRange v → t.pc + 2 ≤ Config.maxAddr →
    ∃ (d : Target) (wa : Nat) (t' u : State), fetch t = .ok (.inp d) ∧ writeAddr d t = .ok wa ∧
      operate (.addInput v) t = (.done, t') ∧ step t' = .next u ∧
      u.mem.read wa = v ∧ (∀ x, x ≠ wa → u.mem.read x = t.mem.read x) ∧
      u = { t with mem := u.mem, pc := t.pc + 2 }

/-- 47 R108, R111: more fuel never changes the result of a run, so a run has at most one end. -/
def Obligations.RunHasAtMostOneEnd : Prop :=
  ∀ (s : State) (r r' : RunResult) (t t' : State), RunEnds s r t → RunEnds s r' t' → r = r' ∧ t = t'

/-! ## The host interface -/

/-- 48 R123, R124: `WRITE` sets one cell and changes nothing else, `READ` gives a cell and changes nothing; a bad argument is refused. -/
def Obligations.HostReadsAndWritesAnyCell : Prop :=
  ∀ s : State, s.isFaulted = false → s.mem.wf →
    (∀ a : Int, 0 ≤ a → a ≤ Config.maxAddr → operate (.read a) s = (.value (s.mem.read a.toNat), s) ∧
      ∀ v : Int, InRange v → ∃ t, operate (.write a v) s = (.done, t) ∧ t = { s with mem := t.mem } ∧ t.mem.wf ∧
        t.mem.read a.toNat = v ∧ ∀ b, b ≠ a.toNat → t.mem.read b = s.mem.read b) ∧
    (∀ a : Int, a < 0 ∨ (Config.maxAddr : Int) < a → operate (.read a) s = (.refused .argument, s) ∧
      ∀ v, operate (.write a v) s = (.refused .argument, s)) ∧
    (∀ a v : Int, ¬ InRange v → operate (.write a v) s = (.refused .argument, s))

/-- 48 R121: `REINIT` is accepted in every status, with any legal image, and refused with no effect for any other. -/
def Obligations.ReinitIsAcceptedInEveryStatus : Prop :=
  ∀ (img : List Int) (s : State),
    (img.length ≤ Config.maxAddr + 1 → (∀ v ∈ img, InRange v) → operate (.reinit img) s = (.done, State.construct img)) ∧
    (Config.maxAddr + 1 < img.length ∨ (∃ v ∈ img, ¬ InRange v) → operate (.reinit img) s = (.refused .argument, s))

/-- 48 R126: `TAKE_LAST_OUTPUT` removes and gives the newest value only. -/
def Obligations.TakeLastOutputTakesTheNewest : Prop :=
  ∀ s : State, s.isFaulted = false →
    (∀ older v, s.outlog = older ++ [v] → operate .takeLastOutput s = (.value v, { s with outlog := older })) ∧
    (s.outlog = [] → operate .takeLastOutput s = (.noValue, s))

/-- 48 R127: `DRAIN_OUTPUTS` gives the whole log and empties it, as `OUTPUTS` and then `TAKE_LAST_OUTPUT` until it gives none would. -/
def Obligations.DrainEqualsOutputsThenTakes : Prop :=
  ∀ s : State, s.isFaulted = false →
    operate .drainOutputs s = (.values s.outlog, { s with outlog := [] }) ∧
    operate .outputs s = (.values s.outlog, s) ∧
    (fun u => (operate .takeLastOutput u).2)^[s.outlog.length] s = (operate .drainOutputs s).2 ∧
    (operate .takeLastOutput (operate .drainOutputs s).2).1 = .noValue ∧
    ∀ k < s.outlog.length, (operate .takeLastOutput ((fun u => (operate .takeLastOutput u).2)^[k] s)).1 ≠ .noValue

/-- 48 R129: `ADD_INPUT` appends at the back and changes nothing else; a value out of range is refused. -/
def Obligations.AddInputAppendsAtTheBack : Prop :=
  ∀ (s : State) (v : Int), s.isFaulted = false →
    (InRange v → operate (.addInput v) s = (.done, { s with inq := s.inq ++ [v] })) ∧
    (¬ InRange v → operate (.addInput v) s = (.refused .argument, s))

/-- 47 R113, 48 R124, R129: no operation but `REINIT` changes `pc`, `rb` or `status`, so none wakes a suspended core. -/
def Obligations.OperationsLeaveControlState : Prop :=
  ∀ (o : Operation) (s : State), (∀ img, o ≠ .reinit img) →
    (operate o s).2.pc = s.pc ∧ (operate o s).2.rb = s.rb ∧ (operate o s).2.status = s.status

/-- 48 R130, R131: `CLONE` adds a copy and changes no core, or is refused on a faulted core and adds none; a command to one core leaves every other, and answers the same whatever
the others hold. That a core is named by its place is the model's choice (log entry 12). -/
def Obligations.CoresAreIndependent : Prop :=
  (∀ (fuel k : Nat) (cores : System) (s : State), cores[k]? = some s → s.isFaulted = false →
    System.command fuel k (.op .clone) cores = some (.done, cores ++ [s])) ∧
  (∀ (fuel k : Nat) (cores : System) (s : State), cores[k]? = some s → s.isFaulted = true →
    System.command fuel k (.op .clone) cores = some (.refused .faulted, cores)) ∧
  (∀ (fuel k : Nat) (c : Command) (cores cores' : System) (r : Response),
    System.command fuel k c cores = some (r, cores') → ∀ j, j ≠ k → j < cores.length → cores'[j]? = cores[j]?) ∧
  (∀ (fuel k : Nat) (c : Command) (cores others : System), cores[k]? = others[k]? →
    (System.command fuel k c cores).map (fun x => (x.1, x.2[k]?)) = (System.command fuel k c others).map (fun x => (x.1, x.2[k]?)))

/-- 48 R120, R134: behind the ports a run takes the turns of `Run()`; until it responds `busy` is true and no command is accepted, and
its response is the run's result. -/
def Obligations.BusyPortRunsToTheRunsResult : Prop :=
  ∀ (n : Nat) (s : State) (r : RunResult) (t : State), s.isFaulted = false → run n s = some (r, t) →
    ∃ k < n, Port.present .run ⟨s, false⟩ = (.accepted, ⟨s, true⟩) ∧
      (∀ j ≤ k, ((fun p => (Port.turn p).2)^[j] ⟨s, true⟩).busy = true ∧
        ∀ c, Port.present c ((fun p => (Port.turn p).2)^[j] ⟨s, true⟩) = (.notAccepted, (fun p => (Port.turn p).2)^[j] ⟨s, true⟩)) ∧
      Port.turn ((fun p => (Port.turn p).2)^[k] ⟨s, true⟩) = (some r, ⟨t, false⟩)

/-- 60 R168, 48 R134: the host cannot read `pc` or `rb`: no operation's response and no port's answer depends on them, and `RUN` responds
with a refusal, `AwaitingInput`, `Halted`, or the fault record that `status` then holds. That `CLONE` answers done is the model's
reading of the two rules (log entry 18, DEDUCED). -/
def Obligations.ResponsesDoNotShowPcOrRelativeBase : Prop :=
  (∀ (o : Operation) (s : State) (pc : Nat) (rb : Int), (operate o { s with pc := pc, rb := rb }).1 = (operate o s).1) ∧
  (∀ (c : Command) (s : State) (pc : Nat) (rb : Int) (busy : Bool),
    (Port.present c ⟨{ s with pc := pc, rb := rb }, busy⟩).1 = (Port.present c ⟨s, busy⟩).1) ∧
  (∀ (fuel : Nat) (s t : State) (r : Response), command fuel .run s = some (r, t) →
    r = .refused .faulted ∨ r = .result .awaitingInput ∨ r = .result .halted ∨
    ∃ record, r = .result (.fault record) ∧ t.status = .faulted record)
end

