-- ==== Sys2Proof/Laws/Memory.lean ====
section
/-! SUPPORT. The laws of memory: reading after writing, the canonical form, extensionality, the image. -/

namespace Sys2Proof.Machine

/-- An address below every listed one reads as an unlisted address. -/
theorem Memory.read_of_lt {m : Memory} {a : Nat} (h : ∀ e ∈ m, a < e.1) : m.read a = unlisted := by
  induction m with
  | nil => rfl
  | cons e m ih =>
    have := h e (by simp)
    simp [Memory.read, Nat.ne_of_lt this, ih fun x hx => h x (by simp [hx])]

theorem Memory.wf_tail {e : Nat × Word} {m : Memory} (h : Memory.wf (e :: m)) : Memory.wf m :=
  ⟨h.1.tail, fun x hx => h.2 x (by simp [hx])⟩

theorem Memory.head_lt {e : Nat × Word} {m : Memory} (h : Memory.wf (e :: m)) : ∀ x ∈ m, e.1 < x.1 :=
  (List.pairwise_cons.1 h.1).1

/-- An entry after a write is the written one or an entry of before. -/
theorem Memory.mem_write {m : Memory} {a : Nat} {v : Word} {e : Nat × Word} (h : e ∈ m.write a v) :
    e ∈ m ∨ (e = (a, v) ∧ v ≠ unlisted) := by
  induction m with
  | nil =>
    by_cases hv : v = unlisted
    · simp [Memory.write, hv] at h
    · simp only [Memory.write, hv, if_false, List.mem_singleton] at h
      exact .inr ⟨h, hv⟩
  | cons x m ih =>
    obtain ⟨b, w⟩ := x
    simp only [Memory.write] at h
    split_ifs at h with h1 hv h2 hv
    · exact .inl h
    · rcases List.mem_cons.1 h with rfl | h
      · exact .inr ⟨rfl, hv⟩
      · exact .inl h
    · exact .inl (List.mem_cons_of_mem _ h)
    · rcases List.mem_cons.1 h with rfl | h
      · exact .inr ⟨rfl, hv⟩
      · exact .inl (List.mem_cons_of_mem _ h)
    · rcases List.mem_cons.1 h with rfl | h
      · exact .inl (by simp)
      · rcases ih h with h | h
        · exact .inl (List.mem_cons_of_mem _ h)
        · exact .inr h

/-- A write keeps the canonical form. -/
theorem Memory.write_wf {m : Memory} (h : m.wf) (a : Nat) (v : Word) : (m.write a v).wf := by
  refine ⟨?_, fun e he => ?_⟩
  · induction m with
    | nil => by_cases hv : v = unlisted <;> simp [Memory.write, hv]
    | cons x m ih =>
      obtain ⟨b, w⟩ := x
      have hlt := Memory.head_lt h
      have ht := Memory.wf_tail h
      simp only [Memory.write]
      split_ifs with h1 hv h2 hv
      · exact h.1
      · refine List.pairwise_cons.2 ⟨fun y hy => ?_, h.1⟩
        rcases List.mem_cons.1 hy with rfl | hy
        · exact h1
        · exact Nat.lt_trans h1 (hlt y hy)
      · exact ht.1
      · exact List.pairwise_cons.2 ⟨fun y hy => by subst h2; exact hlt y hy, ht.1⟩
      · refine List.pairwise_cons.2 ⟨fun y hy => ?_, ih ht⟩
        rcases Memory.mem_write hy with hy | ⟨rfl, -⟩
        · exact hlt y hy
        · exact Nat.lt_of_le_of_ne (Nat.le_of_not_lt h1) (Ne.symm h2)
  · rcases Memory.mem_write he with he | ⟨rfl, hv⟩
    · exact h.2 e he
    · exact hv

/-- A read at the written address gives the written value (20 R32). -/
theorem Memory.read_write_same {m : Memory} (h : m.wf) (a : Nat) (v : Word) : (m.write a v).read a = v := by
  induction m with
  | nil => by_cases hv : v = unlisted <;> simp [Memory.write, Memory.read, hv]
  | cons x m ih =>
    obtain ⟨b, w⟩ := x
    have hlt := Memory.head_lt h
    simp only [Memory.write]
    split_ifs with h1 hv h2 hv
    · subst hv
      refine Memory.read_of_lt fun e he => ?_
      rcases List.mem_cons.1 he with rfl | he
      · exact h1
      · exact Nat.lt_trans h1 (hlt e he)
    · simp [Memory.read]
    · subst hv h2
      exact Memory.read_of_lt hlt
    · simp [Memory.read]
    · simp [Memory.read, h2, ih (Memory.wf_tail h)]

/-- A write leaves every other address alone (20 R32). -/
theorem Memory.read_write_other (m : Memory) {a b : Nat} (v : Word) (h : b ≠ a) : (m.write a v).read b = m.read b := by
  induction m with
  | nil => by_cases hv : v = unlisted <;> simp [Memory.write, Memory.read, hv, h]
  | cons x m ih =>
    obtain ⟨c, w⟩ := x
    simp only [Memory.write]
    split_ifs with h1 hv h2 hv
    · rfl
    · simp [Memory.read, h]
    · subst h2; simp [Memory.read, h]
    · subst h2; simp [Memory.read, h]
    · simp [Memory.read, ih]

theorem Memory.write_inBounds {m : Memory} (h : m.inBounds) {a : Nat} {v : Word} (ha : a ≤ Config.maxAddr) (hv : InRange v) :
    (m.write a v).inBounds := by
  intro e he
  rcases Memory.mem_write he with he | ⟨rfl, -⟩
  · exact h e he
  · exact ⟨ha, hv⟩

/-- A cell read from a memory in bounds is a cell value. -/
theorem Memory.read_inRange {m : Memory} (h : m.inBounds) (a : Nat) : InRange (m.read a) := by
  induction m with
  | nil => exact (by decide : InRange unlisted)
  | cons x m ih =>
    obtain ⟨b, w⟩ := x
    simp only [Memory.read]
    split_ifs
    · exact (h (b, w) (by simp)).2
    · exact ih fun e he => h e (by simp [he])

/-- An address that reads otherwise than an unlisted one is listed. -/
theorem Memory.mem_of_read {m : Memory} {a : Nat} (h : m.read a ≠ unlisted) : (a, m.read a) ∈ m := by
  induction m with
  | nil => exact absurd rfl h
  | cons x m ih =>
    obtain ⟨b, w⟩ := x
    simp only [Memory.read] at h ⊢
    split_ifs at h ⊢ with hb
    · subst hb; simp
    · exact List.mem_cons_of_mem _ (ih h)

/-- A listed entry of a canonical memory is what its address reads as. -/
theorem Memory.read_of_mem {m : Memory} (h : m.wf) {a : Nat} {v : Word} (he : (a, v) ∈ m) : m.read a = v := by
  induction m with
  | nil => simp at he
  | cons x m ih =>
    obtain ⟨b, w⟩ := x
    simp only [Memory.read]
    rcases List.mem_cons.1 he with he | he
    · obtain ⟨rfl, rfl⟩ := Prod.mk.injEq .. ▸ he
      simp
    · have : b < a := Memory.head_lt h _ he
      simp [Nat.ne_of_gt this, ih (Memory.wf_tail h) he]

/-! ## The image -/

theorem Memory.ofImage_addr_ge {img : List Word} {a : Nat} {e : Nat × Word} (h : e ∈ Memory.ofImage a img) : a ≤ e.1 := by
  induction img generalizing a with
  | nil => simp [Memory.ofImage] at h
  | cons v img ih =>
    simp only [Memory.ofImage] at h
    split_ifs at h
    · exact Nat.le_of_succ_le (ih h)
    · rcases List.mem_cons.1 h with rfl | h
      · exact Nat.le_refl _
      · exact Nat.le_of_succ_le (ih h)

theorem Memory.ofImage_wf (img : List Word) (a : Nat) : (Memory.ofImage a img).wf := by
  induction img generalizing a with
  | nil => exact ⟨.nil, by simp [Memory.ofImage]⟩
  | cons v img ih =>
    simp only [Memory.ofImage]
    split_ifs with hv
    · exact ih (a + 1)
    · refine ⟨List.pairwise_cons.2 ⟨fun e he => Memory.ofImage_addr_ge he, (ih (a + 1)).1⟩, fun e he => ?_⟩
      rcases List.mem_cons.1 he with rfl | he
      · exact hv
      · exact (ih (a + 1)).2 e he

/-- Every entry of an image's memory is a cell of the image, at an address of the image. -/
theorem Memory.ofImage_mem {img : List Word} {a : Nat} {e : Nat × Word} (h : e ∈ Memory.ofImage a img) :
    e.1 < a + img.length ∧ e.2 ∈ img := by
  induction img generalizing a with
  | nil => simp [Memory.ofImage] at h
  | cons v img ih =>
    simp only [Memory.ofImage] at h
    have key (he : e ∈ Memory.ofImage (a + 1) img) : e.1 < a + (v :: img).length ∧ e.2 ∈ v :: img :=
      ⟨by have := (ih he).1; simp only [List.length_cons]; omega, List.mem_cons_of_mem _ (ih he).2⟩
    split_ifs at h
    · exact key h
    · rcases List.mem_cons.1 h with rfl | h
      · simp
      · exact key h

/-- Below the image nothing is listed. -/
theorem Memory.ofImage_read_before (img : List Word) {a b : Nat} (h : b < a) : (Memory.ofImage a img).read b = unlisted :=
  Memory.read_of_lt fun _ he => Nat.lt_of_lt_of_le h (Memory.ofImage_addr_ge he)

/-- Cell `k` of the image, 0 beyond its last cell (10 R20). -/
theorem Memory.ofImage_read (img : List Word) (a k : Nat) : (Memory.ofImage a img).read (a + k) = img.getD k 0 := by
  induction img generalizing a k with
  | nil => rfl
  | cons v img ih =>
    simp only [Memory.ofImage]
    cases k with
    | zero =>
      split_ifs with hv
      · simpa [hv, unlisted] using Memory.ofImage_read_before img (Nat.lt_succ_self a)
      · simp [Memory.read]
    | succ k =>
      have := ih (a+1) k
      rw [show a + 1 + k = a + (k+1) by omega] at this
      split_ifs with hv
      · simpa using this
      · simp [Memory.read]; simpa using this

/-! ## Cells written in a row -/

theorem Memory.writeCells_wf {m : Memory} (h : m.wf) (a : Nat) (vs : List Word) : (m.writeCells a vs).wf := by
  induction vs generalizing m a with
  | nil => exact h
  | cons v vs ih =>
    simp only [Memory.writeCells]
    split_ifs
    · exact ih (Memory.write_wf h a v) _
    · exact ih h _

end Sys2Proof.Machine
end

