-- ==== Sys2Proof/Laws/State.lean ====
section
/-! SUPPORT. One lemma for each field under each update of State, so that no proof unfolds a record update. -/

namespace Sys2Proof.Machine

section store
variable (s : State) (a : Nat) (v : Word)
@[simp] theorem State.store_mem : (s.store a v).mem = s.mem.write a v := rfl
@[simp] theorem State.store_pc : (s.store a v).pc = s.pc := rfl
@[simp] theorem State.store_rb : (s.store a v).rb = s.rb := rfl
@[simp] theorem State.store_inq : (s.store a v).inq = s.inq := rfl
@[simp] theorem State.store_outlog : (s.store a v).outlog = s.outlog := rfl
@[simp] theorem State.store_status : (s.store a v).status = s.status := rfl
end store

section setPc
variable (s : State) (a : Nat)
@[simp] theorem State.setPc_mem : (s.setPc a).mem = s.mem := rfl
@[simp] theorem State.setPc_pc : (s.setPc a).pc = a := rfl
@[simp] theorem State.setPc_rb : (s.setPc a).rb = s.rb := rfl
@[simp] theorem State.setPc_inq : (s.setPc a).inq = s.inq := rfl
@[simp] theorem State.setPc_outlog : (s.setPc a).outlog = s.outlog := rfl
@[simp] theorem State.setPc_status : (s.setPc a).status = s.status := rfl
end setPc

section setRb
variable (s : State) (v : Word)
@[simp] theorem State.setRb_mem : (s.setRb v).mem = s.mem := rfl
@[simp] theorem State.setRb_pc : (s.setRb v).pc = s.pc := rfl
@[simp] theorem State.setRb_rb : (s.setRb v).rb = v := rfl
@[simp] theorem State.setRb_inq : (s.setRb v).inq = s.inq := rfl
@[simp] theorem State.setRb_outlog : (s.setRb v).outlog = s.outlog := rfl
@[simp] theorem State.setRb_status : (s.setRb v).status = s.status := rfl
end setRb

section setInq
variable (s : State) (q : List Word)
@[simp] theorem State.setInq_mem : (s.setInq q).mem = s.mem := rfl
@[simp] theorem State.setInq_pc : (s.setInq q).pc = s.pc := rfl
@[simp] theorem State.setInq_rb : (s.setInq q).rb = s.rb := rfl
@[simp] theorem State.setInq_inq : (s.setInq q).inq = q := rfl
@[simp] theorem State.setInq_outlog : (s.setInq q).outlog = s.outlog := rfl
@[simp] theorem State.setInq_status : (s.setInq q).status = s.status := rfl
end setInq

section append
variable (s : State) (v : Word)
@[simp] theorem State.append_mem : (s.append v).mem = s.mem := rfl
@[simp] theorem State.append_pc : (s.append v).pc = s.pc := rfl
@[simp] theorem State.append_rb : (s.append v).rb = s.rb := rfl
@[simp] theorem State.append_inq : (s.append v).inq = s.inq := rfl
@[simp] theorem State.append_outlog : (s.append v).outlog = s.outlog ++ [v] := rfl
@[simp] theorem State.append_status : (s.append v).status = s.status := rfl
end append

section setStatus
variable (s : State) (st : Status)
@[simp] theorem State.setStatus_mem : (s.setStatus st).mem = s.mem := rfl
@[simp] theorem State.setStatus_pc : (s.setStatus st).pc = s.pc := rfl
@[simp] theorem State.setStatus_rb : (s.setStatus st).rb = s.rb := rfl
@[simp] theorem State.setStatus_inq : (s.setStatus st).inq = s.inq := rfl
@[simp] theorem State.setStatus_outlog : (s.setStatus st).outlog = s.outlog := rfl
@[simp] theorem State.setStatus_status : (s.setStatus st).status = st := rfl
end setStatus

/-- The end of a run writes the status of its result and nothing else (47 R106, R108). -/
theorem State.endRun_eq (s : State) (e : Stop) : s.endRun e = s.setStatus (e.result s).status := by
  cases e <;> rfl

section endRun
variable (s : State) (e : Stop)
@[simp] theorem State.endRun_mem : (s.endRun e).mem = s.mem := by cases e <;> rfl
@[simp] theorem State.endRun_pc : (s.endRun e).pc = s.pc := by cases e <;> rfl
@[simp] theorem State.endRun_rb : (s.endRun e).rb = s.rb := by cases e <;> rfl
@[simp] theorem State.endRun_inq : (s.endRun e).inq = s.inq := by cases e <;> rfl
@[simp] theorem State.endRun_outlog : (s.endRun e).outlog = s.outlog := by cases e <;> rfl
@[simp] theorem State.endRun_status : (s.endRun e).status = (e.result s).status := by cases e <;> rfl
end endRun

/-- A core is faulted when its status carries a record. -/
theorem State.isFaulted_iff (s : State) : s.isFaulted = true ↔ ∃ r, s.status = .faulted r := by
  unfold State.isFaulted
  cases s.status <;> simp

theorem State.not_isFaulted_iff (s : State) : s.isFaulted = false ↔ ∀ r, s.status ≠ .faulted r := by
  unfold State.isFaulted
  cases s.status <;> simp

theorem State.pcValid_iff (s : State) : s.pcValid = true ↔ s.pc ≤ Config.maxAddr := by
  simp [State.pcValid]

/-- The invariant does not depend on `status`. -/
theorem State.Inv.setStatus {s : State} (h : s.Inv) (st : Status) : (s.setStatus st).Inv :=
  ⟨h.pc, h.rb, h.memWf, h.mem, h.inq, h.outlog⟩

theorem State.Inv.endRun {s : State} (h : s.Inv) (e : Stop) : (s.endRun e).Inv := by
  rw [State.endRun_eq]; exact h.setStatus _

end Sys2Proof.Machine
end

