-- ==== Sys2Proof/Laws/Operands.lean ====
section
/-! SUPPORT. What each check of the resolver and of the controller can answer, said once. -/

namespace Sys2Proof.Machine

/-! ## Sequencing -/

theorem bind_eq_ok {ε α β : Type} {x : Except ε α} {f : α → Except ε β} {b : β} :
    (x >>= f) = .ok b ↔ ∃ a, x = .ok a ∧ f a = .ok b := by
  cases x <;> simp [bind, Except.bind]

theorem bind_eq_error {ε α β : Type} {x : Except ε α} {f : α → Except ε β} {e : ε} :
    (x >>= f) = .error e ↔ x = .error e ∨ ∃ a, x = .ok a ∧ f a = .error e := by
  cases x <;> simp [bind, Except.bind]

@[simp] theorem ok_bind {ε α β : Type} (a : α) (f : α → Except ε β) : (Except.ok a >>= f) = f a := rfl
@[simp] theorem error_bind {ε α β : Type} (e : ε) (f : α → Except ε β) : (Except.error e >>= f) = .error e := rfl
@[simp] theorem return_eq_ok {ε α : Type} (a : α) : (pure a : Except ε α) = .ok a := rfl

@[simp] theorem map_ok {ε α β : Type} (f : α → β) (a : α) : (Except.ok a : Except ε α).map f = .ok (f a) := rfl
@[simp] theorem map_error {ε α β : Type} (f : α → β) (e : ε) : (Except.error e : Except ε α).map f = .error e := rfl

theorem map_eq_ok {ε α β : Type} {x : Except ε α} {f : α → β} {b : β} : x.map f = .ok b ↔ ∃ a, x = .ok a ∧ f a = b := by
  cases x <;> simp

theorem map_eq_error {ε α β : Type} {x : Except ε α} {f : α → β} {e : ε} : x.map f = .error e ↔ x = .error e := by
  cases x <;> simp

/-! ## Bounds as numerals -/

theorem maxAddr_eq : Config.maxAddr = 9223372036854775807 := rfl
theorem maxV_eq : Config.maxV = 9223372036854775807 := rfl
theorem minV_eq : Config.minV = -9223372036854775808 := rfl

/-! ## The checks -/

/-- `CheckAddr` passes exactly the addresses, unchanged (20 R33). -/
theorem checkAddr_ok {a : Int} {n : Nat} : checkAddr a = .ok n ↔ 0 ≤ a ∧ a ≤ (Config.maxAddr : Int) ∧ n = a.toNat := by
  unfold checkAddr addressFault
  split_ifs with h1 h2
  · simp; omega
  · simp; intro _ h; omega
  · simp only [Except.ok.injEq]; constructor
    · rintro rfl; exact ⟨by omega, by omega, rfl⟩
    · rintro ⟨-, -, rfl⟩; rfl

/-- `CheckAddr` fails below 0 and above `MAXADDR`, the offending value unchanged (20 R33). -/
theorem checkAddr_error {a : Int} {e : Stop} : checkAddr a = .error e ↔
    (a < 0 ∧ e = .fault (.addressFault .negativeAddress) a) ∨
    ((Config.maxAddr : Int) < a ∧ e = .fault (.addressFault .addressOutOfRange) a) := by
  have := maxAddr_eq
  unfold checkAddr addressFault
  split_ifs with h1 h2
  · simp only [Except.error.injEq]; constructor
    · rintro rfl; exact .inl ⟨h1, rfl⟩
    · rintro (⟨-, rfl⟩ | ⟨h, -⟩)
      · rfl
      · omega
  · simp only [Except.error.injEq]; constructor
    · rintro rfl; exact .inr ⟨h2, rfl⟩
    · rintro (⟨h, -⟩ | ⟨-, rfl⟩)
      · exact absurd h h1
      · rfl
  · simp only [false_iff]
    rintro (⟨h, -⟩ | ⟨h, -⟩)
    · exact h1 h
    · exact h2 h

/-- An address that passes is at most `MAXADDR`. -/
theorem checkAddr_le {a : Int} {n : Nat} (h : checkAddr a = .ok n) : n ≤ Config.maxAddr := by
  obtain ⟨h0, h1, rfl⟩ := checkAddr_ok.1 h
  omega

theorem writeAddr_le {d : Target} {s : State} {n : Nat} (h : writeAddr d s = .ok n) : n ≤ Config.maxAddr := checkAddr_le h

/-- What `ReadParam` can answer: the raw value, or the cell at an address that passed (40 R71). -/
theorem readParam_ok {p : Source} {s : State} {v : Word} (h : readParam p s = .ok v) :
    (p.mode = .immediate ∧ v = p.raw) ∨ ∃ n ≤ Config.maxAddr, v = s.mem.read n := by
  unfold readParam at h
  split at h
  · obtain ⟨n, hn, rfl⟩ := map_eq_ok.1 h; exact .inr ⟨n, checkAddr_le hn, rfl⟩
  · rename_i hm; simp only [Except.ok.injEq] at h; exact .inl ⟨hm, h.symm⟩
  · obtain ⟨n, hn, rfl⟩ := map_eq_ok.1 h; exact .inr ⟨n, checkAddr_le hn, rfl⟩

/-- A value parameter resolves to a cell value when its raw value and the memory hold cell values (10 R25). -/
theorem readParam_inRange {p : Source} {s : State} {v : Word} (hs : s.mem.inBounds) (hp : InRange p.raw)
    (h : readParam p s = .ok v) : InRange v := by
  rcases readParam_ok h with ⟨-, rfl⟩ | ⟨n, -, rfl⟩
  · exact hp
  · exact Memory.read_inRange hs n

/-- The only faults of resolution are codes 6 and 7 (60 R154). -/
theorem effAddr_error {m : TargetMode} {raw : Word} {s : State} {e : Stop} (h : effAddr m raw s = .error e) :
    ∃ sub info, e = .fault (.addressFault sub) info ∧ (sub = .negativeAddress ∨ sub = .addressOutOfRange) := by
  rcases checkAddr_error.1 h with ⟨-, rfl⟩ | ⟨-, rfl⟩
  · exact ⟨_, _, rfl, .inl rfl⟩
  · exact ⟨_, _, rfl, .inr rfl⟩

theorem readParam_error {p : Source} {s : State} {e : Stop} (h : readParam p s = .error e) :
    ∃ sub info, e = .fault (.addressFault sub) info ∧ (sub = .negativeAddress ∨ sub = .addressOutOfRange) := by
  unfold readParam at h
  split at h
  · exact effAddr_error (map_eq_error.1 h)
  · simp at h
  · exact effAddr_error (map_eq_error.1 h)

theorem checkNextPc_ok {t : Nat} {u : Unit} : checkNextPc t = .ok u ↔ t ≤ Config.maxAddr := by
  unfold checkNextPc addressFault; split_ifs with h <;> simp <;> omega

theorem checkNextPc_error {t : Nat} {e : Stop} : checkNextPc t = .error e ↔
    Config.maxAddr < t ∧ e = .fault (.addressFault .pcOutOfRange) t := by
  unfold checkNextPc addressFault; split_ifs with h <;> simp [h, eq_comm]

theorem jumpTarget_ok {t : Word} {n : Nat} : jumpTarget t = .ok n ↔ 0 ≤ t ∧ n = t.toNat := by
  unfold jumpTarget addressFault
  split_ifs with h
  · exact ⟨fun h' => by simp at h', fun ⟨h', _⟩ => absurd h (Int.not_lt.2 h')⟩
  · exact ⟨fun h' => ⟨Int.not_lt.1 h, (Except.ok.inj h').symm⟩, fun ⟨_, h'⟩ => h' ▸ rfl⟩

theorem jumpTarget_error {t : Word} {e : Stop} : jumpTarget t = .error e ↔
    t < 0 ∧ e = .fault (.addressFault .negativeJumpTarget) t := by
  unfold jumpTarget addressFault; split_ifs with h <;> simp [h, eq_comm]

theorem checkResult_ok {r : Int} {v : Word} : checkResult r = .ok v ↔ InRange r ∧ v = r := by
  unfold checkResult
  split_ifs with h
  · exact ⟨fun h' => ⟨h, (Except.ok.inj h').symm⟩, fun ⟨_, h'⟩ => h' ▸ rfl⟩
  · simp [h]

theorem checkResult_error {r : Int} {e : Stop} : checkResult r = .error e ↔
    ¬ InRange r ∧ e = .fault .arithmeticOverflow r := by
  unfold checkResult; split_ifs with h <;> simp [h, eq_comm]

/-- The parameter-cell test passes exactly when the last cell is an address (47 R106 phase 3). -/
theorem checkParamCells_ok {a n : Nat} {u : Unit} (ha : a ≤ Config.maxAddr + 1) :
    checkParamCells a n = .ok u ↔ a + n ≤ Config.maxAddr + 1 := by
  induction n generalizing a with
  | zero => simp [checkParamCells, ha]
  | succ n ih =>
    simp only [checkParamCells, addressFault]
    split_ifs with h
    · simp; omega
    · rw [ih (by omega)]; omega

/-- Where the parameter-cell test fails, it reports the first address above `MAXADDR` (60 R155 item 6). -/
theorem checkParamCells_error {a n : Nat} {e : Stop} (ha : a ≤ Config.maxAddr + 1) :
    checkParamCells a n = .error e ↔
      Config.maxAddr + 1 < a + n ∧ e = .fault (.addressFault .addressOutOfRange) (Config.maxAddr + 1 : Nat) := by
  induction n generalizing a with
  | zero => simp [checkParamCells]; omega
  | succ n ih =>
    simp only [checkParamCells, addressFault]
    split_ifs with h
    · have : a = Config.maxAddr + 1 := by omega
      subst this; simp [eq_comm]
    · rw [ih (by omega)]
      constructor <;> rintro ⟨h1, rfl⟩ <;> exact ⟨by omega, rfl⟩

end Sys2Proof.Machine
end

