-- ==== Sys2Proof/Laws/Decode.lean ====
section
/-! SUPPORT. The decoder and the encoder: digits, forms, lengths, and what fetching gives. -/

namespace Sys2Proof

/-! ## Digits, opcodes and modes -/

theorem Mode.ofDigit_digit (m : Mode) : Mode.ofDigit m.digit = some m := by cases m <;> rfl

theorem Mode.ofDigit_some {n : Nat} {m : Mode} (h : Mode.ofDigit n = some m) : n = m.digit := by
  have := List.find?_some h
  exact (beq_iff_eq.1 this).symm

theorem Opcode.ofNumber_number (op : Opcode) : Opcode.ofNumber op.number = some op := by cases op <;> rfl

theorem Opcode.ofNumber_some {n : Nat} {op : Opcode} (h : Opcode.ofNumber n = some op) : n = op.number := by
  have := List.find?_some h
  exact (beq_iff_eq.1 this).symm

/-- The numbers that select nothing (30 R62 case 1). -/
theorem Opcode.ofNumber_none {n : Nat} (h : ∀ op : Opcode, n ≠ op.number) : Opcode.ofNumber n = none :=
  List.find?_eq_none.2 fun op _ hop => h op (beq_iff_eq.1 hop).symm

theorem Opcode.number_le (op : Opcode) : op.number ≤ 99 := by cases op <;> decide

theorem Mode.digit_le (m : Mode) : m.digit ≤ 2 := by cases m <;> decide

/-- A digit above 2 is no mode (30 R57). -/
theorem Mode.ofDigit_none {n : Nat} (h : 3 ≤ n) : Mode.ofDigit n = none :=
  List.find?_eq_none.2 fun m _ hm => by have := beq_iff_eq.1 hm; have := m.digit_le; omega

/-- A digit up to 2 is a mode (30 R57). -/
theorem Mode.ofDigit_isSome {n : Nat} (h : n ≤ 2) : ∃ m, Mode.ofDigit n = some m := by
  obtain rfl | rfl | rfl : n = 0 ∨ n = 1 ∨ n = 2 := by omega
  exacts [⟨_, rfl⟩, ⟨_, rfl⟩, ⟨_, rfl⟩]

theorem Mode.asTarget_ok {m : Mode} {tm : TargetMode} (h : m.asTarget = .ok tm) : m = tm.mode := by
  cases m <;> cases tm <;> simp_all [Mode.asTarget, TargetMode.mode]

/-! ## Forms -/

/-- A legal word decodes to its form; there are 99 (30 R59). -/
theorem decodeWord_word (f : Form) : decodeWord f.word = .ok f := by
  rcases f with ⟨m0, m1, m2⟩ | ⟨m0, m1, m2⟩ | m0 | m0 | ⟨m0, m1⟩ | ⟨m0, m1⟩ | ⟨m0, m1, m2⟩ | ⟨m0, m1, m2⟩ | m0 | _
  all_goals first | cases m0 | skip
  all_goals first | cases m1 | skip
  all_goals first | cases m2 | skip
  all_goals rfl

theorem readModes_zero_ok {r rest : Int} {ms : List Mode} (h : readModes 0 r = .ok (ms, rest)) : ms = [] ∧ r = rest := by
  simpa [readModes, eq_comm] using h

/-- One turn of the loop that commits: the lowest digit is the mode's, and the loop goes on above it (30 R53). -/
theorem readModes_succ_ok {n : Nat} {r rest : Int} {ms : List Mode} (h : readModes (n + 1) r = .ok (ms, rest)) :
    ∃ m ms', ms = m :: ms' ∧ r % 10 = m.digit ∧ readModes n (r / 10) = .ok (ms', rest) := by
  unfold readModes at h
  split at h
  · cases h
  · rename_i m hm
    split at h
    · cases h
    · rename_i ms' rest' hr
      cases h
      have := Mode.ofDigit_some hm
      exact ⟨m, ms', rfl, by omega, hr⟩

/-- A word that decodes is the word of its form (30 R59): no two words mean one instruction. -/
theorem decodeWord_ok {w : Int} {f : Form} (h : decodeWord w = .ok f) : w = f.word := by
  unfold decodeWord at h
  split at h
  · cases h
  rename_i hw
  split at h
  · cases h
  rename_i op hop
  have hop := Opcode.ofNumber_some hop
  split at h
  · cases h
  rename_i ms rest hms
  split at h
  · cases h
  rename_i hrest
  have hrest : rest = 0 := by simpa using hrest
  cases op <;> simp only [Opcode.arity, Opcode.number] at hms hop
  case hlt =>
    obtain ⟨rfl, hr⟩ := readModes_zero_ok hms
    cases h
    simp [Form.word, Form.opcode, Opcode.number, Form.modes, Mode.digit]; omega
  case inp | out | arb =>
    obtain ⟨m0, _, rfl, h0, hms⟩ := readModes_succ_ok hms
    obtain ⟨rfl, hr⟩ := readModes_zero_ok hms
    simp only [Form.ofModes, List.getD_cons_zero] at h
    first
      | obtain ⟨tm, htm, rfl⟩ := Machine.map_eq_ok.1 h
        have := Mode.asTarget_ok htm; subst this
        simp [Form.word, Form.opcode, Opcode.number, Form.modes, Mode.digit] at h0 ⊢; omega
      | cases h
        simp [Form.word, Form.opcode, Opcode.number, Form.modes, Mode.digit] at h0 ⊢; omega
  case jnz | jz =>
    obtain ⟨m0, _, rfl, h0, hms⟩ := readModes_succ_ok hms
    obtain ⟨m1, _, rfl, h1, hms⟩ := readModes_succ_ok hms
    obtain ⟨rfl, hr⟩ := readModes_zero_ok hms
    cases h
    simp [Form.word, Form.opcode, Opcode.number, Form.modes, Mode.digit] at h0 h1 ⊢; omega
  case add | mul | lt | eq =>
    obtain ⟨m0, _, rfl, h0, hms⟩ := readModes_succ_ok hms
    obtain ⟨m1, _, rfl, h1, hms⟩ := readModes_succ_ok hms
    obtain ⟨m2, _, rfl, h2, hms⟩ := readModes_succ_ok hms
    obtain ⟨rfl, hr⟩ := readModes_zero_ok hms
    obtain ⟨tm, htm, rfl⟩ := Machine.map_eq_ok.1 h
    have := Mode.asTarget_ok htm; simp only [List.getD_cons_succ, List.getD_cons_zero] at this; subst this
    simp [Form.word, Form.opcode, Opcode.number, Form.modes] at h0 h1 h2 ⊢; omega

/-- A digit in 3 to 9 at one of the mode positions: no mode, whatever the others are (30 R62 case 2). -/
theorem readModes_illegal {n : Nat} {r : Int} (h : ∃ k < n, 3 ≤ r / 10 ^ k % 10) : readModes n r = .error .illegalMode := by
  induction n generalizing r with
  | zero => obtain ⟨k, hk, _⟩ := h; omega
  | succ n ih =>
    unfold readModes
    obtain ⟨k, hk, h⟩ := h
    cases hm : Mode.ofDigit (r % 10).toNat with
    | none => rfl
    | some m =>
      have h10 := Mode.ofDigit_some hm
      have := m.digit_le
      cases k with
      | zero => simp at h; omega
      | succ k =>
        have : r / 10 / 10 ^ k % 10 = r / 10 ^ (k+1) % 10 := by
          rw [Int.ediv_ediv_of_nonneg (by omega), pow_succ']
        simp only
        rw [ih ⟨k, by omega, by rw [this]; exact h⟩]

/-- All mode digits in 0 to 2: their modes, and what is left above them (30 R53). -/
theorem readModes_legal {n : Nat} {r : Int} (h : ∀ k < n, r / 10 ^ k % 10 ≤ 2) :
    ∃ ms, readModes n r = .ok (ms, r / 10 ^ n) ∧ ∀ k, (hk : k < n) → ((ms.getD k .position).digit : Int) = r / 10 ^ k % 10 := by
  induction n generalizing r with
  | zero => exact ⟨[], by simp [readModes]⟩
  | succ n ih =>
    have hpow : ∀ k, r / 10 / 10 ^ k = r / 10 ^ (k+1) := fun k => by
      rw [Int.ediv_ediv_of_nonneg (by omega), pow_succ']
    obtain ⟨ms, hms, hd⟩ := ih (r := r / 10) (fun k hk => by rw [hpow]; exact h (k+1) (by omega))
    have h0 := h 0 (by omega)
    simp at h0
    obtain ⟨m, hm⟩ := Mode.ofDigit_isSome (n := (r % 10).toNat) (by omega)
    refine ⟨m :: ms, ?_, ?_⟩
    · unfold readModes; simp [hm, hms, hpow]
    · intro k hk
      cases k with
      | zero => have := Mode.ofDigit_some hm; simp; omega
      | succ k => simp only [List.getD_cons_succ]; rw [hd k (by omega), hpow]

/-- The decoder once the sign and the opcode field have passed (30 R53). -/
theorem decodeWord_op {w : Int} {op : Opcode} (h0 : 0 ≤ w) (h : w % 100 = op.number) :
    decodeWord w = match readModes op.arity (w / 100) with
      | .error c => .error c
      | .ok (ms, rest) => if rest ≠ 0 then .error .excessDigits else Form.ofModes op ms := by
  have : Opcode.ofNumber (w % 100).toNat = some op := by rw [h]; exact op.ofNumber_number
  unfold decodeWord
  rw [if_neg (by omega), this] <;> rfl

/-! ## Instructions -/

@[simp] theorem Form.instr_form (raw : Nat → Word) (f : Form) : (f.instr raw).form = f := by cases f <;> rfl

/-- An instruction is the form of its word applied to its raw values. -/
theorem Instr.form_instr (i : Instr) (raw : Nat → Word) (h : ∀ k, (hk : k < i.raws.length) → raw k = i.raws[k]) :
    i.form.instr raw = i := by
  cases i <;> simp [Instr.raws] at h <;> simp [Instr.form, Form.instr]
  all_goals
    first
      | (have h0 := h 0 (by omega); have h1 := h 1 (by omega); have h2 := h 2 (by omega); simp at h0 h1 h2; simp [h0, h1, h2])
      | (have h0 := h 0 (by omega); have h1 := h 1 (by omega); simp at h0 h1; simp [h0, h1])
      | simp [h]

@[simp] theorem Instr.raws_length (i : Instr) : i.raws.length = i.form.opcode.arity := by cases i <;> rfl

/-- The raw values of a form's instruction are the first `arity` cells (30 R50). -/
theorem Form.instr_raws (raw : Nat → Word) (f : Form) : (f.instr raw).raws = (List.range f.opcode.arity).map raw := by
  cases f <;> rfl

theorem Opcode.mem_all (op : Opcode) : op ∈ Opcode.all := by cases op <;> decide

theorem encode_length (i : Instr) : (encode i).length = i.length := by simp [encode, Instr.length, Nat.add_comm]

/-- The word of a form is a cell value. -/
theorem Form.word_inRange (f : Form) : InRange f.word := by
  have h0 := (f.modes.getD 0 .position).digit_le
  have h1 := (f.modes.getD 1 .position).digit_le
  have h2 := (f.modes.getD 2 .position).digit_le
  have hn := f.opcode.number_le
  simp only [InRange, Machine.minV_eq, Machine.maxV_eq, Form.word]
  omega

theorem Instr.wellFormed_iff (i : Instr) : i.wellFormed = true ↔ ∀ v ∈ i.raws, InRange v := by
  simp [Instr.wellFormed]

/-- What a list of cells that decodes looks like. -/
theorem decode_ok {w : Word} {cells rest : List Word} {i : Instr} : decode (w :: cells) = .ok (i, rest) ↔
    ∃ f, decodeWord w = .ok f ∧ f.opcode.arity ≤ cells.length ∧ i = f.instr (fun k => cells.getD k 0) ∧
      rest = cells.drop f.opcode.arity := by
  simp only [decode]
  cases hw : decodeWord w with
  | error c => simp
  | ok f =>
    by_cases h : cells.length < f.opcode.arity
    · simp [h]
    · simp [h, Nat.le_of_not_lt h, eq_comm]

end Sys2Proof

namespace Sys2Proof.Machine

theorem decodeAt_ok {w : Word} {f : Form} : decodeAt w = .ok f ↔ decodeWord w = .ok f := by
  unfold decodeAt; cases decodeWord w <;> simp

theorem decodeAt_error {w : Word} {e : Stop} : decodeAt w = .error e ↔
    ∃ c, decodeWord w = .error c ∧ e = .fault (.decodeFault c) w := by
  unfold decodeAt; cases decodeWord w <;> simp [eq_comm]

/-- What `fetch` gives where `pc` is an address (47 R106 phases 1 to 3). -/
theorem fetch_ok {s : State} {i : Instr} (hp : s.pc ≤ Config.maxAddr) : fetch s = .ok i ↔
    ∃ f, decodeWord (s.mem.read s.pc) = .ok f ∧ s.pc + f.opcode.arity ≤ Config.maxAddr ∧
      i = f.instr fun k => s.mem.read (s.pc + 1 + k) := by
  simp only [fetch, bind_eq_ok, decodeAt_ok, return_eq_ok, Except.ok.injEq]
  constructor
  · rintro ⟨f, hf, _, hc, rfl⟩
    exact ⟨f, hf, by have := (checkParamCells_ok (by omega)).1 hc; omega, rfl⟩
  · rintro ⟨f, hf, hc, rfl⟩
    exact ⟨f, hf, (), (checkParamCells_ok (by omega)).2 (by omega), rfl⟩

/-- What `fetch` raises where `pc` is an address. -/
theorem fetch_error {s : State} {e : Stop} (hp : s.pc ≤ Config.maxAddr) : fetch s = .error e ↔
    (∃ c, decodeWord (s.mem.read s.pc) = .error c ∧ e = .fault (.decodeFault c) (s.mem.read s.pc)) ∨
    (∃ f, decodeWord (s.mem.read s.pc) = .ok f ∧ Config.maxAddr < s.pc + f.opcode.arity ∧
      e = .fault (.addressFault .addressOutOfRange) (Config.maxAddr + 1 : Nat)) := by
  simp only [fetch, bind_eq_error, decodeAt_error, decodeAt_ok, return_eq_ok, reduceCtorEq, and_false, exists_false, or_false]
  refine or_congr Iff.rfl (exists_congr fun f => and_congr_right fun _ => ?_)
  rw [checkParamCells_error (by omega)]
  constructor <;> rintro ⟨h, rfl⟩ <;> exact ⟨by omega, rfl⟩

/-- Fetching reads `mem` and `pc` only (30 R53, 47 R106). -/
theorem fetch_congr {s t : State} (hm : s.mem = t.mem) (hp : s.pc = t.pc) : fetch s = fetch t := by
  simp [fetch, hm, hp]

@[simp] theorem Memory.cells_length (m : Memory) (a n : Nat) : (m.cells a n).length = n := by
  induction n generalizing a with
  | zero => rfl
  | succ n ih => simp [Memory.cells, ih]

/-- The `k`-th of the cells from `a` on. -/
theorem Memory.cells_getD (m : Memory) {a n k : Nat} (h : k < n) : (m.cells a n).getD k 0 = m.read (a + k) := by
  induction n generalizing a k with
  | zero => omega
  | succ n ih =>
    cases k with
    | zero => simp [Memory.cells]
    | succ k =>
      simp only [Memory.cells, List.getD_cons_succ]
      rw [ih (by omega)]; congr 1; omega

/-- What is fetched from a legal memory is well formed (10 R25, 30 R52). -/
theorem fetch_raws_inRange {s : State} {i : Instr} (hm : s.mem.inBounds) (hp : s.pc ≤ Config.maxAddr) (h : fetch s = .ok i) :
    ∀ v ∈ i.raws, InRange v := by
  obtain ⟨f, hf, hp, rfl⟩ := (fetch_ok hp).1 h
  rw [Form.instr_raws]
  intro v hv
  obtain ⟨k, -, rfl⟩ := List.mem_map.1 hv
  exact Memory.read_inRange hm _

end Sys2Proof.Machine
end

