-- ==== Sys2Proof/Laws/Instructions.lean ====
section
/-! SUPPORT. One inversion lemma for each instruction's pseudocode: everything a committing instruction requires and does.
Later proofs cite these and do not unfold the pseudocode. -/

namespace Sys2Proof.Machine

variable {s t : State}

theorem addStep_ok {a b : Source} {d : Target} : addStep a b d s = .ok t ↔
    ∃ v0 v1 wa, readParam a s = .ok v0 ∧ readParam b s = .ok v1 ∧ writeAddr d s = .ok wa ∧ InRange (v0 + v1) ∧
      s.pc + 4 ≤ Config.maxAddr ∧ t = (s.store wa (v0 + v1)).setPc (s.pc + 4) := by
  simp only [addStep, bind_eq_ok, checkResult_ok, checkNextPc_ok, return_eq_ok, Except.ok.injEq]
  constructor
  · rintro ⟨v0, h0, v1, h1, wa, hw, _, ⟨hr, rfl⟩, -, hp, rfl⟩
    exact ⟨v0, v1, wa, h0, h1, hw, hr, hp, rfl⟩
  · rintro ⟨v0, v1, wa, h0, h1, hw, hr, hp, rfl⟩
    exact ⟨v0, h0, v1, h1, wa, hw, _, ⟨hr, rfl⟩, (), hp, rfl⟩

theorem mulStep_ok {a b : Source} {d : Target} : mulStep a b d s = .ok t ↔
    ∃ v0 v1 wa, readParam a s = .ok v0 ∧ readParam b s = .ok v1 ∧ writeAddr d s = .ok wa ∧ InRange (v0 * v1) ∧
      s.pc + 4 ≤ Config.maxAddr ∧ t = (s.store wa (v0 * v1)).setPc (s.pc + 4) := by
  simp only [mulStep, bind_eq_ok, checkResult_ok, checkNextPc_ok, return_eq_ok, Except.ok.injEq]
  constructor
  · rintro ⟨v0, h0, v1, h1, wa, hw, _, ⟨hr, rfl⟩, -, hp, rfl⟩
    exact ⟨v0, v1, wa, h0, h1, hw, hr, hp, rfl⟩
  · rintro ⟨v0, v1, wa, h0, h1, hw, hr, hp, rfl⟩
    exact ⟨v0, h0, v1, h1, wa, hw, _, ⟨hr, rfl⟩, (), hp, rfl⟩

theorem ltStep_ok {a b : Source} {d : Target} : ltStep a b d s = .ok t ↔
    ∃ v0 v1 wa, readParam a s = .ok v0 ∧ readParam b s = .ok v1 ∧ writeAddr d s = .ok wa ∧
      s.pc + 4 ≤ Config.maxAddr ∧ t = (s.store wa (lessThan v0 v1)).setPc (s.pc + 4) := by
  simp only [ltStep, bind_eq_ok, checkNextPc_ok, return_eq_ok, Except.ok.injEq]
  constructor
  · rintro ⟨v0, h0, v1, h1, wa, hw, -, hp, rfl⟩
    exact ⟨v0, v1, wa, h0, h1, hw, hp, rfl⟩
  · rintro ⟨v0, v1, wa, h0, h1, hw, hp, rfl⟩
    exact ⟨v0, h0, v1, h1, wa, hw, (), hp, rfl⟩

theorem eqStep_ok {a b : Source} {d : Target} : eqStep a b d s = .ok t ↔
    ∃ v0 v1 wa, readParam a s = .ok v0 ∧ readParam b s = .ok v1 ∧ writeAddr d s = .ok wa ∧
      s.pc + 4 ≤ Config.maxAddr ∧ t = (s.store wa (equalTo v0 v1)).setPc (s.pc + 4) := by
  simp only [eqStep, bind_eq_ok, checkNextPc_ok, return_eq_ok, Except.ok.injEq]
  constructor
  · rintro ⟨v0, h0, v1, h1, wa, hw, -, hp, rfl⟩
    exact ⟨v0, v1, wa, h0, h1, hw, hp, rfl⟩
  · rintro ⟨v0, v1, wa, h0, h1, hw, hp, rfl⟩
    exact ⟨v0, h0, v1, h1, wa, hw, (), hp, rfl⟩

theorem inpStep_ok {d : Target} : inpStep d s = .ok t ↔
    ∃ wa v rest, writeAddr d s = .ok wa ∧ s.inq = v :: rest ∧ s.pc + 2 ≤ Config.maxAddr ∧
      t = ((s.setInq rest).store wa v).setPc (s.pc + 2) := by
  simp only [inpStep, bind_eq_ok]
  constructor
  · rintro ⟨wa, hw, h⟩
    split at h
    · cases h
    · rename_i v rest hq
      obtain ⟨_, hp, h⟩ := bind_eq_ok.1 h
      cases h
      exact ⟨wa, v, rest, hw, hq, checkNextPc_ok.1 hp, rfl⟩
  · rintro ⟨wa, v, rest, hw, hq, hp, rfl⟩
    refine ⟨wa, hw, ?_⟩
    simp [hq, (checkNextPc_ok (u := ())).2 hp]

theorem outStep_ok {a : Source} : outStep a s = .ok t ↔
    ∃ v0, readParam a s = .ok v0 ∧ s.pc + 2 ≤ Config.maxAddr ∧ t = (s.append v0).setPc (s.pc + 2) := by
  simp only [outStep, bind_eq_ok, checkNextPc_ok, return_eq_ok, Except.ok.injEq]
  constructor
  · rintro ⟨v0, h0, -, hp, rfl⟩; exact ⟨v0, h0, hp, rfl⟩
  · rintro ⟨v0, h0, hp, rfl⟩; exact ⟨v0, h0, (), hp, rfl⟩

theorem arbStep_ok {a : Source} : arbStep a s = .ok t ↔
    ∃ v0, readParam a s = .ok v0 ∧ InRange (s.rb + v0) ∧ s.pc + 2 ≤ Config.maxAddr ∧
      t = (s.setRb (s.rb + v0)).setPc (s.pc + 2) := by
  simp only [arbStep, bind_eq_ok, checkResult_ok, checkNextPc_ok, return_eq_ok, Except.ok.injEq]
  constructor
  · rintro ⟨v0, h0, _, ⟨hr, rfl⟩, -, hp, rfl⟩; exact ⟨v0, h0, hr, hp, rfl⟩
  · rintro ⟨v0, h0, hr, hp, rfl⟩; exact ⟨v0, h0, _, ⟨hr, rfl⟩, (), hp, rfl⟩

/-- A taken jump sets `pc` to its target, which is not negative; any other advances by 3 within the address space. -/
theorem jnzStep_ok {c tg : Source} : jnzStep c tg s = .ok t ↔
    ∃ v0 v1, readParam c s = .ok v0 ∧ readParam tg s = .ok v1 ∧
      ((v0 ≠ 0 ∧ 0 ≤ v1 ∧ t = s.setPc v1.toNat) ∨ (v0 = 0 ∧ s.pc + 3 ≤ Config.maxAddr ∧ t = s.setPc (s.pc + 3))) := by
  simp only [jnzStep, bind_eq_ok, nonZero, decide_eq_true_eq]
  refine ⟨?_, ?_⟩
  · rintro ⟨v0, h0, v1, h1, h⟩
    refine ⟨v0, v1, h0, h1, ?_⟩
    split_ifs at h with hv
    · obtain ⟨n, hn, h⟩ := bind_eq_ok.1 h
      obtain ⟨hle, rfl⟩ := jumpTarget_ok.1 hn
      cases h; exact .inl ⟨hv, hle, rfl⟩
    · obtain ⟨_, hp, h⟩ := bind_eq_ok.1 h
      cases h; exact .inr ⟨by simpa using hv, checkNextPc_ok.1 hp, rfl⟩
  · rintro ⟨v0, v1, h0, h1, ⟨hv, hle, rfl⟩ | ⟨hv, hp, rfl⟩⟩ <;> refine ⟨v0, h0, v1, h1, ?_⟩
    · simp [hv, jumpTarget_ok.2 ⟨hle, rfl⟩]
    · simp [hv, (checkNextPc_ok (u := ())).2 hp]

theorem jzStep_ok {c tg : Source} : jzStep c tg s = .ok t ↔
    ∃ v0 v1, readParam c s = .ok v0 ∧ readParam tg s = .ok v1 ∧
      ((v0 = 0 ∧ 0 ≤ v1 ∧ t = s.setPc v1.toNat) ∨ (v0 ≠ 0 ∧ s.pc + 3 ≤ Config.maxAddr ∧ t = s.setPc (s.pc + 3))) := by
  simp only [jzStep, bind_eq_ok, nonZero, decide_eq_true_eq]
  refine ⟨?_, ?_⟩
  · rintro ⟨v0, h0, v1, h1, h⟩
    refine ⟨v0, v1, h0, h1, ?_⟩
    split_ifs at h with hv
    · obtain ⟨_, hp, h⟩ := bind_eq_ok.1 h
      cases h; exact .inr ⟨hv, checkNextPc_ok.1 hp, rfl⟩
    · obtain ⟨n, hn, h⟩ := bind_eq_ok.1 h
      obtain ⟨hle, rfl⟩ := jumpTarget_ok.1 hn
      cases h; exact .inl ⟨by simpa using hv, hle, rfl⟩
  · rintro ⟨v0, v1, h0, h1, ⟨hv, hle, rfl⟩ | ⟨hv, hp, rfl⟩⟩ <;> refine ⟨v0, h0, v1, h1, ?_⟩
    · simp [hv, jumpTarget_ok.2 ⟨hle, rfl⟩]
    · simp [hv, (checkNextPc_ok (u := ())).2 hp]

/-- The shapes of what a committing instruction changes (47 R106): one cell or `rb` or a queue, and `pc`. -/
theorem instrStep_ok_shape {i : Instr} (h : instrStep i s = .ok t) :
    (∃ wa v q n, wa ≤ Config.maxAddr ∧ n ≤ Config.maxAddr ∧ (q = s.inq ∨ s.inq = v :: q) ∧
      t = ((s.setInq q).store wa v).setPc n) ∨
    (∃ v n, n ≤ Config.maxAddr ∧ t = (s.append v).setPc n) ∨
    (∃ v n, n ≤ Config.maxAddr ∧ InRange v ∧ t = (s.setRb v).setPc n) ∨
    (∃ n, t = s.setPc n) := by
  cases i with
  | add a b d =>
    obtain ⟨v0, v1, wa, -, -, hw, -, hp, rfl⟩ := addStep_ok.1 h
    exact .inl ⟨wa, _, s.inq, _, writeAddr_le hw, hp, .inl rfl, rfl⟩
  | mul a b d =>
    obtain ⟨v0, v1, wa, -, -, hw, -, hp, rfl⟩ := mulStep_ok.1 h
    exact .inl ⟨wa, _, s.inq, _, writeAddr_le hw, hp, .inl rfl, rfl⟩
  | lt a b d =>
    obtain ⟨v0, v1, wa, -, -, hw, hp, rfl⟩ := ltStep_ok.1 h
    exact .inl ⟨wa, _, s.inq, _, writeAddr_le hw, hp, .inl rfl, rfl⟩
  | eq a b d =>
    obtain ⟨v0, v1, wa, -, -, hw, hp, rfl⟩ := eqStep_ok.1 h
    exact .inl ⟨wa, _, s.inq, _, writeAddr_le hw, hp, .inl rfl, rfl⟩
  | inp d =>
    obtain ⟨wa, v, rest, hw, hq, hp, rfl⟩ := inpStep_ok.1 h
    exact .inl ⟨wa, v, rest, _, writeAddr_le hw, hp, .inr hq, rfl⟩
  | out a =>
    obtain ⟨v0, -, hp, rfl⟩ := outStep_ok.1 h
    exact .inr (.inl ⟨v0, _, hp, rfl⟩)
  | arb a =>
    obtain ⟨v0, -, hr, hp, rfl⟩ := arbStep_ok.1 h
    exact .inr (.inr (.inl ⟨_, _, hp, hr, rfl⟩))
  | jnz c tg =>
    obtain ⟨v0, v1, -, -, ⟨-, -, rfl⟩ | ⟨-, -, rfl⟩⟩ := jnzStep_ok.1 h <;> exact .inr (.inr (.inr ⟨_, rfl⟩))
  | jz c tg =>
    obtain ⟨v0, v1, -, -, ⟨-, -, rfl⟩ | ⟨-, -, rfl⟩⟩ := jzStep_ok.1 h <;> exact .inr (.inr (.inr ⟨_, rfl⟩))
  | hlt => cases h

/-- No instruction that commits touches `status` (10 R17). -/
theorem instrStep_ok_status {i : Instr} (h : instrStep i s = .ok t) : t.status = s.status := by
  obtain ⟨_, _, _, _, -, -, -, rfl⟩ | ⟨_, _, -, rfl⟩ | ⟨_, _, -, -, rfl⟩ | ⟨_, rfl⟩ := instrStep_ok_shape h <;> rfl

/-! ## How an instruction ends a run -/

/-- How `IN` ends a run: an address fault, suspension, or the sequential `pc` (42 R85). -/
theorem inpStep_error {d : Target} {e : Stop} (h : inpStep d s = .error e) : (∃ sub info, e = .fault (.addressFault sub) info ∧ (sub = .negativeAddress ∨ sub = .addressOutOfRange)) ∨
   e = .awaitingInput ∧ s.inq = [] ∨ e = .fault (.addressFault .pcOutOfRange) (s.pc+2 : Nat) ∧ Config.maxAddr < s.pc + 2 := by
  simp only [inpStep, bind_eq_error] at h
  rcases h with h | ⟨wa, -, h⟩
  · exact .inl (effAddr_error h)
  · split at h
    · cases h; exact .inr (.inl ⟨rfl, by assumption⟩)
    · simp [bind_eq_error, checkNextPc_error] at h; exact .inr (.inr ⟨h.2, h.1⟩)

/-- How each instruction can end a run (60 R153, R154): the whole list, with which instructions each entry belongs to. -/
theorem instrStep_error {i : Instr} {e : Stop} (h : instrStep i s = .error e) :
    (∃ sub info, e = .fault (.addressFault sub) info ∧ (sub = .negativeAddress ∨ sub = .addressOutOfRange) ∧ i ≠ .hlt) ∨
    (∃ info, e = .fault .arithmeticOverflow info ∧ ((∃ a b d, i = .add a b d) ∨ (∃ a b d, i = .mul a b d) ∨ ∃ a, i = .arb a)) ∨
    (∃ info, e = .fault (.addressFault .negativeJumpTarget) info ∧ ((∃ c g, i = .jnz c g) ∨ ∃ c g, i = .jz c g)) ∨
    (e = .fault (.addressFault .pcOutOfRange) (s.pc + i.length : Nat) ∧ Config.maxAddr < s.pc + i.length ∧ i ≠ .hlt) ∨
    (e = .awaitingInput ∧ (∃ d, i = .inp d) ∧ s.inq = []) ∨ (e = .halted ∧ i = .hlt) := by
  have R : ∀ {p : Source}, readParam p s = .error e → ∀ i : Instr, i ≠ .hlt → ∃ sub info, e = .fault (.addressFault sub) info ∧ (sub = .negativeAddress ∨ sub = .addressOutOfRange) ∧ i ≠ .hlt := by
    intro p hp i hi; obtain ⟨a, b, c, d⟩ := readParam_error hp; exact ⟨a, b, c, d, hi⟩
  have W : ∀ {p : Target}, writeAddr p s = .error e → ∀ i : Instr, i ≠ .hlt → ∃ sub info, e = .fault (.addressFault sub) info ∧ (sub = .negativeAddress ∨ sub = .addressOutOfRange) ∧ i ≠ .hlt := by
    intro p hp i hi; obtain ⟨a, b, c, d⟩ := effAddr_error hp; exact ⟨a, b, c, d, hi⟩
  cases i with
  | add a b d =>
    simp only [instrStep, addStep, bind_eq_error, checkResult_error, checkNextPc_error, return_eq_ok, reduceCtorEq, and_false, exists_false, or_false] at h
    rcases h with h | ⟨v0, h0, h | ⟨v1, h1, h | ⟨wa, hw, ⟨-, h⟩ | ⟨r, -, hp, h⟩⟩⟩⟩
    · exact .inl (R h _ (by simp))
    · exact .inl (R h _ (by simp))
    · exact .inl (W h _ (by simp))
    · exact .inr (.inl ⟨_, h, .inl ⟨_, _, _, rfl⟩⟩)
    · exact .inr (.inr (.inr (.inl ⟨h, hp, by simp⟩)))
  | mul a b d =>
    simp only [instrStep, mulStep, bind_eq_error, checkResult_error, checkNextPc_error, return_eq_ok, reduceCtorEq, and_false, exists_false, or_false] at h
    rcases h with h | ⟨v0, h0, h | ⟨v1, h1, h | ⟨wa, hw, ⟨-, h⟩ | ⟨r, -, hp, h⟩⟩⟩⟩
    · exact .inl (R h _ (by simp))
    · exact .inl (R h _ (by simp))
    · exact .inl (W h _ (by simp))
    · exact .inr (.inl ⟨_, h, .inr (.inl ⟨_, _, _, rfl⟩)⟩)
    · exact .inr (.inr (.inr (.inl ⟨h, hp, by simp⟩)))
  | lt a b d =>
    simp only [instrStep, ltStep, bind_eq_error, checkNextPc_error, return_eq_ok, reduceCtorEq, and_false, exists_false, or_false] at h
    rcases h with h | ⟨v0, h0, h | ⟨v1, h1, h | ⟨wa, hw, hp, h⟩⟩⟩
    · exact .inl (R h _ (by simp))
    · exact .inl (R h _ (by simp))
    · exact .inl (W h _ (by simp))
    · exact .inr (.inr (.inr (.inl ⟨h, hp, by simp⟩)))
  | eq a b d =>
    simp only [instrStep, eqStep, bind_eq_error, checkNextPc_error, return_eq_ok, reduceCtorEq, and_false, exists_false, or_false] at h
    rcases h with h | ⟨v0, h0, h | ⟨v1, h1, h | ⟨wa, hw, hp, h⟩⟩⟩
    · exact .inl (R h _ (by simp))
    · exact .inl (R h _ (by simp))
    · exact .inl (W h _ (by simp))
    · exact .inr (.inr (.inr (.inl ⟨h, hp, by simp⟩)))
  | out a =>
    simp only [instrStep, outStep, bind_eq_error, checkNextPc_error, return_eq_ok, reduceCtorEq, and_false, exists_false, or_false] at h
    rcases h with h | ⟨v0, h0, hp, h⟩
    · exact .inl (R h _ (by simp))
    · exact .inr (.inr (.inr (.inl ⟨h, hp, by simp⟩)))
  | arb a =>
    simp only [instrStep, arbStep, bind_eq_error, checkResult_error, checkNextPc_error, return_eq_ok, reduceCtorEq, and_false, exists_false, or_false] at h
    rcases h with h | ⟨v0, h0, ⟨-, h⟩ | ⟨r, -, hp, h⟩⟩
    · exact .inl (R h _ (by simp))
    · exact .inr (.inl ⟨_, h, .inr (.inr ⟨_, rfl⟩)⟩)
    · exact .inr (.inr (.inr (.inl ⟨h, hp, by simp⟩)))
  | inp d =>
    rcases inpStep_error h with ⟨sub, info, rfl, hh⟩ | ⟨rfl, hq⟩ | ⟨rfl, hp⟩
    · exact .inl ⟨_, _, rfl, hh, by simp⟩
    · exact .inr (.inr (.inr (.inr (.inl ⟨rfl, ⟨_, rfl⟩, hq⟩))))
    · exact .inr (.inr (.inr (.inl ⟨rfl, hp, by simp⟩)))
  | jnz c g =>
    simp only [instrStep, jnzStep, bind_eq_error] at h
    rcases h with h | ⟨v0, h0, h | ⟨v1, h1, h⟩⟩
    · exact .inl (R h _ (by simp))
    · exact .inl (R h _ (by simp))
    · split_ifs at h <;> simp only [bind_eq_error, checkNextPc_error, jumpTarget_error, return_eq_ok, reduceCtorEq, and_false, exists_false, or_false] at h
      · exact .inr (.inr (.inl ⟨_, h.2, .inl ⟨_, _, rfl⟩⟩))
      · exact .inr (.inr (.inr (.inl ⟨h.2, h.1, by simp⟩)))
  | jz c g =>
    simp only [instrStep, jzStep, bind_eq_error] at h
    rcases h with h | ⟨v0, h0, h | ⟨v1, h1, h⟩⟩
    · exact .inl (R h _ (by simp))
    · exact .inl (R h _ (by simp))
    · split_ifs at h <;> simp only [bind_eq_error, checkNextPc_error, jumpTarget_error, return_eq_ok, reduceCtorEq, and_false, exists_false, or_false] at h
      · exact .inr (.inr (.inr (.inl ⟨h.2, h.1, by simp⟩)))
      · exact .inr (.inr (.inl ⟨_, h.2, .inr ⟨_, _, rfl⟩⟩))
  | hlt => cases h; exact .inr (.inr (.inr (.inr (.inr ⟨rfl, rfl⟩))))

end Sys2Proof.Machine
end

