-- ==== Sys2Proof/Laws/Controller.lean ====
section
/-! SUPPORT. How `exec`, `step`, `coreStep` and `run` hang together, said once. -/

namespace Sys2Proof.Machine

/-- Every meaning is its pseudocode, concluded. -/
theorem exec_eq_conclude (i : Instr) (s : State) : exec i s = s.conclude (instrStep i s) := by
  cases i <;> rfl

theorem conclude_ok (s t : State) : s.conclude (.ok t) = .next t := rfl
theorem conclude_error (s : State) (e : Stop) : s.conclude (.error e) = .next (s.endRun e) := rfl

/-- A concluded outcome is a next state: the committed one, or the state the run ends in. -/
theorem conclude_eq_next {s t : State} {r : Except Stop State} : s.conclude r = .next t ↔
    r = .ok t ∨ ∃ e, r = .error e ∧ t = s.endRun e := by
  cases r <;> simp [State.conclude, eq_comm]

/-- What `exec` can answer. -/
theorem exec_eq_next {i : Instr} {s t : State} : exec i s = .next t ↔
    instrStep i s = .ok t ∨ ∃ e, instrStep i s = .error e ∧ t = s.endRun e := by
  rw [exec_eq_conclude, conclude_eq_next]

theorem coreStep_of_fetch {s : State} {i : Instr} (h : fetch s = .ok i) : coreStep s = instrStep i s := by
  simp [coreStep, h]

theorem coreStep_ok {s t : State} : coreStep s = .ok t ↔ ∃ i, fetch s = .ok i ∧ instrStep i s = .ok t := by
  simp [coreStep, bind_eq_ok]

theorem coreStep_error {s : State} {e : Stop} : coreStep s = .error e ↔
    fetch s = .error e ∨ ∃ i, fetch s = .ok i ∧ instrStep i s = .error e := by
  simp [coreStep, bind_eq_error]

/-- Away from a recorded fault and inside the address space, a step is `Step()`, concluded (47 R106, R108). -/
theorem step_eq_conclude {s : State} (hf : s.isFaulted = false) (hp : s.pc ≤ Config.maxAddr) :
    step s = s.conclude (coreStep s) := by
  simp only [step, hf, (State.pcValid_iff s).2 hp, coreStep]
  cases fetch s with
  | ok i => simp [exec_eq_conclude]
  | error e => simp [State.conclude]

/-- What `step` can answer, whole. -/
theorem step_cases (s : State) :
    (s.isFaulted = true ∧ step s = .refused .faulted) ∨
    (s.isFaulted = false ∧ Config.maxAddr < s.pc ∧ step s = .fault .pcOutsideMemory) ∨
    (s.isFaulted = false ∧ s.pc ≤ Config.maxAddr ∧ step s = s.conclude (coreStep s)) := by
  cases hf : s.isFaulted with
  | true => exact .inl ⟨rfl, by simp [step, hf]⟩
  | false =>
    rcases Nat.lt_or_ge Config.maxAddr s.pc with hp | hp
    · have : s.pcValid = false := by simp [State.pcValid, hp]
      exact .inr (.inl ⟨rfl, hp, by simp [step, hf, this]⟩)
    · exact .inr (.inr ⟨rfl, hp, step_eq_conclude hf hp⟩)

/-- A step that answers a next state: a committed instruction, or the end of a run. -/
theorem step_eq_next {s t : State} (h : step s = .next t) :
    s.isFaulted = false ∧ s.pc ≤ Config.maxAddr ∧ (coreStep s = .ok t ∨ ∃ e, coreStep s = .error e ∧ t = s.endRun e) := by
  rcases step_cases s with ⟨-, h'⟩ | ⟨-, -, h'⟩ | ⟨hf, hp, h'⟩
  · rw [h'] at h; cases h
  · rw [h'] at h; cases h
  · exact ⟨hf, hp, conclude_eq_next.1 (h' ▸ h)⟩

/-- A committed instruction is the answer of `exec`. -/
theorem exec_of_ok {i : Instr} {s t : State} (h : instrStep i s = .ok t) : exec i s = .next t :=
  exec_eq_next.2 (.inl h)

/-- A raised fault is entered (60 R160). -/
theorem exec_of_fault {i : Instr} {s : State} {c : Cause} {info : Int} (h : instrStep i s = .error (.fault c info)) :
    exec i s = .next (s.withFault c info) :=
  exec_eq_next.2 (.inr ⟨_, h, rfl⟩)

/-- A fetched instruction is executed (47 R106). -/
theorem step_of_fetch {s : State} {i : Instr} (hf : s.isFaulted = false) (hp : s.pc ≤ Config.maxAddr) (h : fetch s = .ok i) :
    step s = exec i s := by
  rw [step_eq_conclude hf hp, coreStep_of_fetch h, exec_eq_conclude]

/-- A fault of phases 1 to 3 is entered (47 R106, 60 R160). -/
theorem step_of_fault {s : State} {c : Cause} {info : Int} (hf : s.isFaulted = false) (hp : s.pc ≤ Config.maxAddr)
    (h : fetch s = .error (.fault c info)) : step s = .next (s.withFault c info) := by
  rw [step_eq_conclude hf hp, coreStep_error.2 (.inl h)]; rfl

/-- The three ends of a run, each with the state it leaves (47 R108). -/
theorem State.endRun_cases (s : State) (e : Stop) :
    (e = .awaitingInput ∧ s.endRun e = { s with status := .awaitingInput }) ∨
    (e = .halted ∧ s.endRun e = { s with status := .halted }) ∨
    ∃ c info, e = .fault c info ∧ s.endRun e = s.withFault c info := by
  cases e
  · exact .inl ⟨rfl, rfl⟩
  · exact .inr (.inl ⟨rfl, rfl⟩)
  · exact .inr (.inr ⟨_, _, rfl, rfl⟩)

/-- Only a fault leaves a record, the one of the state it was raised in (60 R160). -/
theorem State.endRun_faulted {s : State} {e : Stop} {r : FaultRecord} (h : (s.endRun e).status = .faulted r) :
    ∃ c info, e = .fault c info ∧ r = s.record c info := by
  cases e
  · cases h
  · cases h
  · cases h; exact ⟨_, _, rfl, rfl⟩

/-- Phases 1 to 3 end a run only by a fault. -/
theorem fetch_error_fault {s : State} {e : Stop} (h : fetch s = .error e) : ∃ c info, e = .fault c info := by
  simp only [fetch, bind_eq_error, decodeAt_error, return_eq_ok, reduceCtorEq, and_false, exists_false, or_false] at h
  rcases h with ⟨_, _, h⟩ | ⟨f, _, h⟩
  · exact ⟨_, _, h⟩
  · revert h
    generalize f.opcode.arity = n
    generalize s.pc + 1 = a
    intro h
    induction n generalizing a with
    | zero => cases h
    | succ n ih =>
      simp only [checkParamCells, addressFault] at h
      split at h
      · cases h; exact ⟨_, _, rfl⟩
      · exact ih _ h

@[simp] theorem run_zero (s : State) : run 0 s = none := rfl

theorem run_succ_ok {s t : State} (h : coreStep s = .ok t) (n : Nat) : run (n + 1) s = run n t := by
  simp [run, h]

theorem run_succ_error {s : State} {e : Stop} (h : coreStep s = .error e) (n : Nat) :
    run (n + 1) s = some (e.result s, s.endRun e) := by
  simp [run, h]

/-- One induction for every fact about the end of a run: what holds of the state before the last instruction, and is brought
there by every committed instruction. -/
theorem run_induction {P : State → Prop} (hstep : ∀ s t, P s → coreStep s = .ok t → P t) {n : Nat} {s : State}
    {r : RunResult} {t : State} (hs : P s) (h : run n s = some (r, t)) :
    ∃ u e, P u ∧ coreStep u = .error e ∧ r = e.result u ∧ t = u.endRun e := by
  induction n generalizing s with
  | zero => simp at h
  | succ n ih =>
    cases hc : coreStep s with
    | ok u => exact ih (hstep s u hs hc) (run_succ_ok hc n ▸ h)
    | error e =>
      rw [run_succ_error hc] at h
      obtain ⟨rfl, rfl⟩ := Prod.mk.inj (Option.some.inj h)
      exact ⟨s, e, hs, hc, rfl, rfl⟩

end Sys2Proof.Machine
end

