-- ==== Sys2Proof/Laws/Commands.lean ====
section
/-! SUPPORT. How the core answers a host command, said once. -/

namespace Sys2Proof.Machine

/-- A core with no fault recorded answers every operation (60 R162). -/
theorem operate_of_not_faulted {s : State} (h : s.isFaulted = false) (o : Operation) : operate o s = perform o s := by
  simp [operate, Operation.accepted, h]

/-- `REINIT` is answered in every status (48 R121, 60 R162). -/
theorem operate_reinit (img : List Int) (s : State) : operate (.reinit img) s = reinitOp img s := by
  simp [operate, Operation.accepted, Operation.allowedFaulted, perform]

/-- Whatever the status, an operation is performed or refused with no effect. -/
theorem operate_cases (o : Operation) (s : State) : operate o s = (.refused .faulted, s) ∨ operate o s = perform o s := by
  unfold operate
  split
  · exact .inr rfl
  · exact .inl rfl

/-- `CLONE` on a core that accepts it: done, the core unchanged, one copy created (48 R130). -/
theorem clone_of_not_faulted {s : State} (h : s.isFaulted = false) :
    operate .clone s = (.done, s) ∧ Operation.clone.created s = [s] := by
  simp [operate, perform, Operation.created, Operation.accepted, h]

/-- A refused operation creates no core (60 R162). -/
theorem Operation.created_of_faulted {s : State} (h : s.isFaulted = true) (o : Operation) : o.created s = [] := by
  cases o <;> simp [Operation.created, Operation.accepted, Operation.allowedFaulted, h]

theorem legalImage_iff (img : List Int) :
    legalImage img = true ↔ img.length ≤ Config.maxAddr + 1 ∧ ∀ v ∈ img, InRange v := by
  simp [legalImage]

/-- Reset gives a memory in the canonical form (10 R20). -/
theorem State.construct_mem_wf (img : List Int) : (State.construct img).mem.wf := Memory.ofImage_wf img 0

theorem State.reset_mem_wf : State.reset.mem.wf := Memory.ofImage_wf [] 0

/-- A cell the host presents is in range exactly when its address argument is an address. -/
theorem validAddress_iff (a : Int) : validAddress a = true ↔ 0 ≤ a ∧ a ≤ (Config.maxAddr : Int) := by
  simp [validAddress]

end Sys2Proof.Machine
end

