-- ==== Sys2Proof/Laws/PerInstr.lean ====
section
/-! SUPPORT. One statement about every instruction as syntax, made constructor by constructor: a well-formed instruction is encoded
in cell values, so a memory can hold it (30 R50, R52). -/

namespace Sys2Proof.Laws.EncodedInRange

/-- The cells of a well-formed instruction are cell values. -/
def Statement (i : Instr) : Prop := i.wellFormed = true → ∀ c ∈ encode i, InRange c

theorem any (i : Instr) : Statement i := by
  intro h c hc
  rcases List.mem_cons.1 hc with rfl | hc
  · exact Form.word_inRange _
  · exact i.wellFormed_iff.1 h c hc

theorem add (a b : Source) (d : Target) : Statement (.add a b d) := any _
theorem mul (a b : Source) (d : Target) : Statement (.mul a b d) := any _
theorem inp (d : Target) : Statement (.inp d) := any _
theorem out (a : Source) : Statement (.out a) := any _
theorem jnz (c t : Source) : Statement (.jnz c t) := any _
theorem jz (c t : Source) : Statement (.jz c t) := any _
theorem lt (a b : Source) (d : Target) : Statement (.lt a b d) := any _
theorem eq (a b : Source) (d : Target) : Statement (.eq a b d) := any _
theorem arb (a : Source) : Statement (.arb a) := any _
theorem hlt : Statement (.hlt) := any _

end Sys2Proof.Laws.EncodedInRange
end

