-- ==== Sys2Proof/Tests/Slice0.lean ====
section
/-! SUPPORT. Tests by hand calculation from spec/: the words and vectors of 95_test_vectors.md, and for each statement with hypotheses a
witness that meets them. -/

namespace Sys2Proof.Tests

open Sys2Proof.Machine

/-! ## Small states -/

/-- The next state of an outcome. -/
def nextOf : Host.Outcome State Fault Refusal → Option State
  | .next t => some t
  | .fault _ | .refused _ => none

/-- The core after reset with these cells as its image, with `rb` as given. -/
def prog (cells : List Word) (rb : Word := 0) : State := { State.construct cells with rb := rb }

/-- The core after reset with these cells at `pc` and after it. -/
def placed (pc : Nat) (cells : List Word) : State := { State.reset with mem := Memory.ofImage pc cells, pc := pc }

/-- One item of the state one step later. -/
def after {α : Type} (f : State → α) (s : State) : Option α := (nextOf (step s)).map f

/-- The cell at `a` and `pc`. -/
def cellPc (a : Nat) (s : State) : Word × Nat := (s.mem.read a, s.pc)

/-- The code, the `info` and the `pc` of the recorded fault. -/
def faultOf (s : State) : Option (Nat × Int × Nat) :=
  match s.status with
  | .faulted r => some (r.code, r.info, r.pc)
  | .ready | .awaitingInput | .halted => none

/-- `MAXV` and `MINV` as literals. -/
def top : Int := 9223372036854775807
def bottom : Int := -9223372036854775808

/-! ## Well-formedness: a raw value above and one below the range, at each parameter -/

theorem test_wf_edges : (Instr.add ⟨.immediate, top⟩ ⟨.relative, bottom⟩ ⟨.position, top⟩).wellFormed = true := by decide
theorem test_wf_first_above : (Instr.add ⟨.immediate, top + 1⟩ ⟨.position, 0⟩ ⟨.position, 0⟩).wellFormed = false := by decide
theorem test_wf_second_below : (Instr.jnz ⟨.immediate, 1⟩ ⟨.immediate, bottom - 1⟩).wellFormed = false := by decide
theorem test_wf_third_above : (Instr.lt ⟨.immediate, 1⟩ ⟨.immediate, 1⟩ ⟨.relative, top + 1⟩).wellFormed = false := by decide
theorem test_wf_single_below : (Instr.arb ⟨.immediate, bottom - 1⟩).wellFormed = false := by decide
theorem test_wf_target_above : (Instr.inp ⟨.position, top + 1⟩).wellFormed = false := by decide

/-! ## Decoding: each constructor from words written out by 30 R51, R54, R57 (95 section 3) -/

theorem test_decode_add : decode [21201, 7, -8, 9] = .ok (.add ⟨.relative, 7⟩ ⟨.immediate, -8⟩ ⟨.relative, 9⟩, []) := by decide
theorem test_decode_mul : decode [1002, 4, 3, 4, 33] = .ok (.mul ⟨.position, 4⟩ ⟨.immediate, 3⟩ ⟨.position, 4⟩, [33]) := by decide
theorem test_decode_in : decode [203, -1] = .ok (.inp ⟨.relative, -1⟩, []) := by decide
theorem test_decode_out : decode [104, 5] = .ok (.out ⟨.immediate, 5⟩, []) := by decide
theorem test_decode_jnz : decode [2105, 1, 2] = .ok (.jnz ⟨.immediate, 1⟩ ⟨.relative, 2⟩, []) := by decide
theorem test_decode_jz : decode [1006, 4, 9] = .ok (.jz ⟨.position, 4⟩ ⟨.immediate, 9⟩, []) := by decide
theorem test_decode_lt : decode [1107, 3, 8, 5] = .ok (.lt ⟨.immediate, 3⟩ ⟨.immediate, 8⟩ ⟨.position, 5⟩, []) := by decide
theorem test_decode_eq : decode [20008, 1, 2, 3] = .ok (.eq ⟨.position, 1⟩ ⟨.position, 2⟩ ⟨.relative, 3⟩, []) := by decide
theorem test_decode_arb : decode [209, 1] = .ok (.arb ⟨.relative, 1⟩, []) := by decide
theorem test_decode_hlt : decode [99, 1] = .ok (.hlt, [1]) := by decide
theorem test_decode_truncated : decode [1101, 1, 2] = .error .truncated := by decide
theorem test_decode_illegal_opcode :
    [0, 10, 98, 100, 1100].map decodeWord = List.replicate 5 (.error .illegalOpcode) := by decide
theorem test_decode_illegal_mode :
    [301, 3101, 1301, 31101, 91101, 904, top].map decodeWord = List.replicate 7 (.error .illegalMode) := by decide
theorem test_decode_immediate_target :
    [11101, 10002, 12207, 10108, 103].map decodeWord = List.replicate 5 (.error .immediateWriteTarget) := by decide
theorem test_decode_negative :
    [-1, -99, -1101, bottom].map decodeWord = List.replicate 4 (.error .negativeWord) := by decide
theorem test_decode_excess :
    [10099, 199, 1199, 1104, 1003, 10005, 100001].map decodeWord = List.replicate 7 (.error .excessDigits) := by decide

/-- The opcode table's word of `OUT`, 8 bits; its operand cell is 0. -/
theorem test_table_word : decodeTableWord 8 4 = some (.out ⟨.position, 0⟩) := by decide
/-- `ADD` with the raw value -1 in its last cell: bits 255..192 all one. -/
theorem test_table_word_negative : decodeTableWord 256 (21101 + 2 ^ 64 * 5 + 2 ^ 192 * (2 ^ 64 - 1)) =
    some (.add ⟨.immediate, 5⟩ ⟨.immediate, 0⟩ ⟨.relative, -1⟩) := by decide
/-- Every row of the table, its mode digits and operand cells 0, decodes and runs as the first instruction after reset. -/
theorem test_table_rows : ∀ w ∈ [1, 2, 3, 4, 5, 6, 7, 8, 9, 99], (decodeTableWord 8 w).isSome = true ∧
    after faultOf (State.reset.withFetchWord 8 w) = some none := by decide
/-- The word of `OUT` placed after reset is the instruction the first step runs: `OUT [0]` outputs its own word. -/
theorem test_fetch_word : after (fun t => (t.outlog, t.pc)) (State.reset.withFetchWord 8 4) = some ([4], 2) := by decide

/-! ## One step of each instruction (95 section 5) -/

theorem test_add_source_is_target : after (cellPc 4) (prog [1001, 4, 3, 4, 33]) = some (36, 4) := by decide
theorem test_add_overflow : after (fun t => (faultOf t, t.mem.read 5)) (prog [1101, top, 1, 5]) = some (some (10, top + 1, 0), 0) := by
  decide
theorem test_mul_least : after (cellPc 5) (prog [1102, -4294967296, 2147483648, 5]) = some (bottom, 4) := by decide
theorem test_mul_overflow : after faultOf (prog [1102, bottom, -1, 5]) = some (some (10, top + 1, 0)) := by decide
theorem test_in_takes_oldest : after (fun t => (t.inq, cellPc 15 t)) { prog [203, 5, 99] 10 with inq := [-1, 8] } =
    some ([8], -1, 2) := by decide
/-- Suspension changes `status` alone; a bad address is found before the queue is tested. -/
theorem test_in_empty_queue : after (fun t => (t.status, t.pc, t.mem)) (prog [3, 5, 99]) =
    some (.awaitingInput, 0, [(0, 3), (1, 5), (2, 99)]) ∧ after faultOf (prog [203, -1, 99]) = some (some (6, -1, 0)) := by decide
theorem test_out_relative : after (fun t => (t.outlog, t.pc)) { prog [204, 3, 99, 0, 55] 1 with outlog := [8] } =
    some ([8, 55], 2) := by decide
theorem test_out_last_cells : after (fun t => (faultOf t, t.outlog)) (placed 9223372036854775806 [104, 5]) =
    some (some (9, top + 1, 9223372036854775806), []) := by decide
theorem test_jnz_negative_condition : after State.pc (prog [1105, -4, 7]) = some 7 := by decide
theorem test_jnz_untaken_target_resolved : after faultOf (prog [105, 0, -5]) = some (some (6, -5, 0)) := by decide
theorem test_jz_taken : after State.pc (prog [1006, 4, 9, 99, 0]) = some 9 := by decide
theorem test_jz_negative_target : after faultOf (prog [1106, 0, -5]) = some (some (8, -5, 0)) := by decide
theorem test_lt_signed : after (cellPc 5) (prog [1107, bottom, top, 5]) = some (1, 4) := by decide
theorem test_lt_equal_writes_zero : after (cellPc 5) (prog [1107, 8, 8, 5, 99, -1]) = some (0, 4) := by decide
theorem test_eq_own_word : after (cellPc 0) (prog [8, 0, 0, 0]) = some (1, 4) := by decide
theorem test_eq_whole_value : after (cellPc 5) (prog [1108, 8, -8, 5, 99, -1]) = some (0, 4) := by decide
theorem test_arb_old_base : after (fun t => (t.rb, t.pc)) (prog [209, 1, 99, 0, 0, 0, 40] 5) = some (45, 2) := by decide
theorem test_arb_underflow : after (fun t => (faultOf t, t.rb)) (prog [109, -1, 99] bottom) =
    some (some (10, bottom - 1, 0), bottom) := by decide
theorem test_hlt_in_last_cell : after (fun t => (t.status, t.pc)) (placed Config.maxAddr [99]) =
    some (.halted, 9223372036854775807) := by decide

/-! ## Faults, priority and the edge of the address space (95 sections 4, 7, 9) -/

theorem test_empty_image : after faultOf State.reset = some (some (1, 0, 0)) := by decide
theorem test_decode_before_resolution : after faultOf (prog [11101, -1, -1, -1]) = some (some (3, 11101, 0)) := by decide
theorem test_first_parameter_first : after faultOf (prog [1, -1, -2, -3]) = some (some (6, -1, 0)) := by decide
theorem test_sum_not_wrapped : after faultOf (prog [204, 1] top) = some (some (7, top + 1, 0)) := by decide
theorem test_parameter_cell_above_top : after faultOf (placed Config.maxAddr [104]) =
    some (some (7, top + 1, 9223372036854775807)) := by decide
theorem test_overflow_before_next_pc : after faultOf (placed 9223372036854775804 [1101, top, 1, 0]) =
    some (some (10, top + 1, 9223372036854775804)) := by decide
theorem test_relative_exact : effAddr .relative bottom (prog [] bottom) =
    .error (.fault (.addressFault .negativeAddress) (-18446744073709551616)) := by decide

/-! ## Host commands (48, 95 section 8) -/

theorem test_take_last : operate .takeLastOutput { State.reset with outlog := [1, 35] } =
    (.value 35, { State.reset with outlog := [1] }) := by decide
theorem test_take_last_empty : operate .takeLastOutput State.reset = (.noValue, State.reset) := by decide
theorem test_write_out_of_range : operate (.write (-1) 0) State.reset = (.refused .argument, State.reset) := by decide
theorem test_reinit_leaves_fault : (operate (.reinit [99]) { State.reset with status := .faulted ⟨.arithmeticOverflow, 0, 1, 2⟩ }) =
    (.done, State.construct [99]) := by decide
/-- `CLONE` answers done at the port and creates an idle core with the whole state; a faulted core creates none. -/
theorem test_clone : Port.present (.op .clone) ⟨prog [99] 7, false⟩ = (.response .done, ⟨prog [99] 7, false⟩) ∧
    Port.created (.op .clone) ⟨prog [99] 7, false⟩ = [⟨prog [99] 7, false⟩] ∧
    Command.created (.op .clone) { prog [99] with status := .faulted ⟨.arithmeticOverflow, 0, 1, 2⟩ } = [] := by decide

/-! ## Witnesses: the hypotheses of each statement can be met -/

/-- An Immediate operand and a Position target. -/
def imm (v : Int) : Source := ⟨.immediate, v⟩
def cell (a : Int) : Target := ⟨.position, a⟩

/-- A recorded fault. -/
def someFault : State := { prog [0] with status := .faulted ⟨.decodeFault .illegalOpcode, 0, 0, 0⟩ }

theorem witness_inv : (prog [104, 7, 99] (-3)).Inv := ⟨by decide, by decide, by decide, by decide, by decide, by decide⟩

theorem witness_ResetLoadsImageAndClearsTheRest :
    operate (.reinit [104, 7, 99]) someFault = (.done, State.construct [104, 7, 99]) ∧
    System.construct [99] [someFault] = (.done, [someFault, State.construct [99]]) := by decide
theorem witness_StepKeepsInvariant : (prog [104, 7, 99] (-3)).Inv ∧ ∃ t, step (prog [104, 7, 99] (-3)) = .next t :=
  ⟨witness_inv, _, rfl⟩
theorem witness_CommandsKeepInvariant : (prog [104, 7, 99] (-3)).Inv ∧
    (∃ r t, command 2 .run (prog [104, 7, 99] (-3)) = some (r, t)) ∧
    ∃ r t, command 0 (.op (.write 9 1)) (prog [104, 7, 99] (-3)) = some (r, t) :=
  ⟨witness_inv, ⟨_, _, rfl⟩, _, _, rfl⟩
theorem witness_CanonicalMemoriesThatReadAlikeAreEqual : ∃ m m' : Memory, m.wf ∧ m'.wf ∧ ∀ a, m.read a = m'.read a :=
  ⟨Memory.ofImage 0 [0, 5], [(1, 5)], by decide, by decide, fun _ => rfl⟩
theorem witness_DecodeInvertsEncode :
    (Instr.eq ⟨.relative, bottom⟩ ⟨.immediate, top⟩ ⟨.relative, bottom⟩).wellFormed = true := by decide
theorem witness_EncodeInvertsDecode :
    decode [21108, 1, 2, 3, 4] = .ok (.eq (imm 1) (imm 2) ⟨.relative, 3⟩, [4]) := by decide
theorem witness_LegalWordsAreExactlyTheNinetyNine : (∀ w ∈ [0, 100, 98, 22209], w ∉ Opcode.all.flatMap legalWords) ∧
    (prog [100]).isFaulted = false ∧ (prog [100]).pc ≤ Config.maxAddr ∧ (prog [100]).mem.read 0 = 100 := by decide
/-- The clauses of 30 R62, each at an edge; the states are `prog [w]`. -/
theorem witness_IllegalWordsRaiseDecodeFault :
    (∀ w ∈ [-1, bottom, 0, 10, 98, 301, 99999999901, 10099, 11101, 103],
      (prog [w]).isFaulted = false ∧ (prog [w]).pc ≤ Config.maxAddr ∧ (prog [w]).mem.read (prog [w]).pc = w) ∧
    (∀ w ∈ [(0 : Int), 10, 98], 0 ≤ w ∧ (w % 100 = 0 ∨ (10 ≤ w % 100 ∧ w % 100 ≤ 98))) ∧
    ((301 : Int) % 100 = Opcode.add.number ∧ ∃ k < Opcode.add.arity, (3 : Int) ≤ 301 / 10 ^ (2 + k) % 10) ∧
    ((10099 : Int) % 100 = Opcode.hlt.number ∧ (∀ k < Opcode.hlt.arity, (10099 : Int) / 10 ^ (2 + k) % 10 ≤ 2) ∧
      (10099 : Int) / 10 ^ (2 + Opcode.hlt.arity) ≠ 0) ∧
    ((11101 : Int) % 100 = Opcode.add.number ∧ (∀ k < Opcode.add.arity, (11101 : Int) / 10 ^ (2 + k) % 10 ≤ 2) ∧
      (11101 : Int) / 10 ^ (2 + Opcode.add.arity) = 0 ∧ Opcode.add.writePos = some 2 ∧ (11101 : Int) / 10 ^ (2 + 2) % 10 = 1) ∧
    ((103 : Int) % 100 = Opcode.inp.number ∧ (103 : Int) / 10 ^ (2 + Opcode.inp.arity) = 0 ∧ Opcode.inp.writePos = some 0) := by
  decide
theorem witness_StepRunsDecodedInstruction :
    ((placed Config.maxAddr [99]).isFaulted = false ∧
      decode ((placed Config.maxAddr [99]).mem.cells Config.maxAddr 1) = .ok (.hlt, []) ∧
      Config.maxAddr + Instr.hlt.length = Config.maxAddr + 1) ∧
    decode ((prog [104, 7, 99]).mem.cells 0 3) = .ok (.out (imm 7), [99]) := by decide
theorem witness_ParameterCellsBeyondTheTopFault :
    (∀ pc ∈ [Config.maxAddr, Config.maxAddr - 2], (placed pc [1101]).isFaulted = false ∧ (placed pc [1101]).pc ≤ Config.maxAddr ∧
      decodeWord ((placed pc [1101]).mem.read (placed pc [1101]).pc) = .ok (.add .immediate .immediate .position) ∧
      Config.maxAddr < (placed pc [1101]).pc + Opcode.add.arity) := by decide
theorem witness_StepAnswersNextUnlessFaulted : (placed Config.maxAddr []).isFaulted = false ∧
    (placed Config.maxAddr []).pc ≤ Config.maxAddr ∧ someFault.isFaulted = true := by decide
/-- 95 section 8, P5: the word stored is 99, and in the second state 0; the third lies at the top of the address space. -/
theorem witness_StoredWordIsFetchedNext :
    ((prog []).mem.wf ∧ (prog []).isFaulted = false ∧ readParam (imm 98) (prog []) = .ok 98 ∧ readParam (imm 1) (prog []) = .ok 1 ∧
      writeAddr (cell 4) (prog []) = .ok 4 ∧ InRange (98 + 1) ∧ decodeWord (98 + 1) = .ok .hlt ∧
      0 + 4 + Form.hlt.opcode.arity ≤ Config.maxAddr) ∧
    decodeWord (0 + 0) = .error .illegalOpcode ∧
    (writeAddr (cell top) (placed (Config.maxAddr - 4) []) = .ok ((placed (Config.maxAddr - 4) []).pc + 4) ∧
      (placed (Config.maxAddr - 4) []).pc + 4 + Form.hlt.opcode.arity ≤ Config.maxAddr) := by decide
theorem witness_EffectiveAddressIsCheckedNotWrapped :
    ((-1 : Int) = -6 + (prog [] 5).rb ∧ (-1 : Int) < 0) ∧ ((Config.maxAddr : Int) < 1 + (prog [] top).rb) ∧
    (0 ≤ -5 + (prog [] 5).rb ∧ -5 + (prog [] 5).rb ≤ Config.maxAddr) ∧ (0 ≤ top ∧ top ≤ Config.maxAddr) := by decide
theorem witness_ParametersResolveByMode : effAddr .relative 7 (prog [] 43) = .ok 50 ∧
    effAddr .position (-1) (prog []) = .error (.fault (.addressFault .negativeAddress) (-1)) := by decide
/-- The failing parameter first, second and third. -/
theorem witness_ParametersResolveEagerlyInOrder :
    readParam ⟨.position, -1⟩ (prog []) = .error (.fault (.addressFault .negativeAddress) (-1)) ∧
    readParam ⟨.relative, 1⟩ (prog [] top) = .error (.fault (.addressFault .addressOutOfRange) (top + 1)) ∧
    readParam (imm 0) (prog []) = .ok 0 ∧
    writeAddr (cell (-3)) (prog []) = .error (.fault (.addressFault .negativeAddress) (-3)) := by decide

/-- Operands that resolve, the state at address 0 and at the two edges of the sequential `pc`. -/
theorem witness_resolved : ∀ pc ∈ [0, Config.maxAddr - 4, Config.maxAddr - 3, Config.maxAddr - 2, Config.maxAddr - 1],
    (placed pc []).mem.wf ∧ readParam (imm top) (placed pc []) = .ok top ∧ readParam (imm 1) (placed pc []) = .ok 1 ∧
    readParam ⟨.relative, 5⟩ (placed pc []) = .ok 0 ∧ writeAddr (cell top) (placed pc []) = .ok Config.maxAddr := by decide
/-- With `witness_resolved`: the sum in range at `pc + 4 = MAXADDR`, the sum one too great, and the next `pc` one too great. -/
theorem witness_AddStoresTheSum : (InRange (top + 0) ∧ (placed (Config.maxAddr - 4) []).pc + 4 ≤ Config.maxAddr) ∧
    ¬ InRange (top + 1) ∧ Config.maxAddr < (placed (Config.maxAddr - 3) []).pc + 4 := by decide
theorem witness_MulStoresTheProduct : (InRange (top * 1) ∧ (placed (Config.maxAddr - 4) []).pc + 4 ≤ Config.maxAddr) ∧
    ¬ InRange (bottom * -1) ∧ Config.maxAddr < (placed (Config.maxAddr - 3) []).pc + 4 := by decide
theorem witness_LtStoresOneOrZero : (0 < (1 : Int) ∧ (1 : Int) ≤ 1) ∧ (placed (Config.maxAddr - 4) []).pc + 4 ≤ Config.maxAddr ∧
    Config.maxAddr < (placed (Config.maxAddr - 3) []).pc + 4 := by decide
theorem witness_EqStoresOneOrZero : ((1 : Int) = 1 ∧ top ≠ 1) ∧ (placed (Config.maxAddr - 4) []).pc + 4 ≤ Config.maxAddr ∧
    Config.maxAddr < (placed (Config.maxAddr - 3) []).pc + 4 := by decide
theorem witness_InTakesTheFrontOrSuspends :
    ((placed 0 []).inq = [] ∧ writeAddr (cell 0) (placed 0 []) = .ok 0) ∧
    (({ placed (Config.maxAddr - 2) [] with inq := [7, 8] } : State).inq = 7 :: [8] ∧
      (placed (Config.maxAddr - 2) []).pc + 2 ≤ Config.maxAddr) ∧
    Config.maxAddr < (placed (Config.maxAddr - 1) []).pc + 2 ∧
    writeAddr (cell (-1)) (placed 0 []) = .error (.fault (.addressFault .negativeAddress) (-1)) := by decide
theorem witness_OutAppendsTheValue : (placed (Config.maxAddr - 2) []).pc + 2 ≤ Config.maxAddr ∧
    Config.maxAddr < (placed (Config.maxAddr - 1) []).pc + 2 := by decide
/-- For both jumps: conditions -4 and 0, targets 0 and -1, the sequential `pc` at `MAXADDR` and one above, a target that faults. -/
theorem witness_JnzJumpsWhenNotZero : readParam (imm (-4)) (placed 0 []) = .ok (-4) ∧ readParam (imm 0) (placed 0 []) = .ok 0 ∧
    readParam (imm (-1)) (placed 0 []) = .ok (-1) ∧ (placed (Config.maxAddr - 3) []).pc + 3 ≤ Config.maxAddr ∧
    Config.maxAddr < (placed (Config.maxAddr - 2) []).pc + 3 ∧
    readParam ⟨.position, -5⟩ (placed 0 []) = .error (.fault (.addressFault .negativeAddress) (-5)) := by decide
theorem witness_JzJumpsWhenZero : readParam (imm (-4)) (placed 0 []) = .ok (-4) ∧ readParam (imm 0) (placed 0 []) = .ok 0 ∧
    readParam (imm (-1)) (placed 0 []) = .ok (-1) ∧ (placed (Config.maxAddr - 3) []).pc + 3 ≤ Config.maxAddr ∧
    Config.maxAddr < (placed (Config.maxAddr - 2) []).pc + 3 ∧
    readParam ⟨.relative, 1⟩ (prog [] top) = .error (.fault (.addressFault .addressOutOfRange) (top + 1)) := by decide
theorem witness_ArbAddsToTheRelativeBase : readParam (imm 1) (prog [] top) = .ok 1 ∧ ¬ InRange ((prog [] top).rb + 1) ∧
    (InRange ((prog [] (top - 1)).rb + 1) ∧ (prog [] (top - 1)).pc + 2 ≤ Config.maxAddr) ∧
    (InRange ((placed (Config.maxAddr - 1) []).rb + 1) ∧ Config.maxAddr < (placed (Config.maxAddr - 1) []).pc + 2) := by decide
theorem witness_HltEndsTheRunInPlace : ((0 : Int) ≤ 199 ∧ (199 : Int) % 100 = 99 ∧ (199 : Int) ≠ 99) ∧
    (prog [99]).isFaulted = false ∧ (prog [99]).mem.read (prog [99]).pc = 99 := by decide

/-- A next state that commits and one that faults, for the frames: the target resolves in one and not in the other. -/
theorem witness_ThreeParameterInstructionFrame :
    (∃ t, exec (.add (imm 1) (imm 2) (cell 9)) (prog []) = .next t) ∧ writeAddr (cell 9) (prog []) = .ok 9 ∧
    (∃ t, exec (.eq (imm 1) (imm 2) (cell (-9))) (prog []) = .next t) ∧
    writeAddr (cell (-9)) (prog []) = .error (.fault (.addressFault .negativeAddress) (-9)) :=
  ⟨⟨_, rfl⟩, by decide, ⟨_, rfl⟩, by decide⟩
theorem witness_InputInstructionFrame : ∃ t, exec (.inp (cell 9)) { prog [] with inq := [4] } = .next t ∧ t.mem.read 9 = 4 :=
  ⟨_, rfl, by decide⟩
theorem witness_NonStoringInstructionFrame :
    (∃ t, exec (.out (imm 1)) (prog []) = .next t) ∧ (∃ t, exec (.jnz (imm 1) (imm 2)) (prog []) = .next t) ∧
    (∃ t, exec (.jz (imm 1) (imm 2)) (prog []) = .next t) ∧ (∃ t, exec (.arb (imm 1)) (prog []) = .next t) ∧
    ∃ t, exec .hlt (prog []) = .next t :=
  ⟨⟨_, rfl⟩, ⟨_, rfl⟩, ⟨_, rfl⟩, ⟨_, rfl⟩, _, rfl⟩
theorem witness_QueuesAndRunEndsBelongToTheirInstructions :
    (∃ t, exec (.inp (cell 9)) { prog [] with inq := [4] } = .next t ∧ t.inq ≠ [4]) ∧
    (∃ t, exec (.out (imm 1)) (prog []) = .next t ∧ t.outlog ≠ []) ∧
    (∃ t, exec (.inp (cell 9)) (prog []) = .next t ∧ t.status = .awaitingInput) ∧
    ∃ t, exec .hlt (prog []) = .next t ∧ t.status = .halted ∧ (prog []).status ≠ .halted :=
  ⟨⟨_, rfl, by decide⟩, ⟨_, rfl, by decide⟩, ⟨_, rfl, by decide⟩, _, rfl, by decide, by decide⟩
theorem witness_RelativeBaseIsWrittenOnlyByArbAndReinit :
    (∃ t, exec (.arb (imm 1)) (prog []) = .next t ∧ t.rb ≠ 0) ∧
    operate (.reinit []) (prog [] 7) = (.done, prog []) ∧ (prog []).rb ≠ (prog [] 7).rb :=
  ⟨⟨_, rfl, by decide⟩, by decide, by decide⟩
theorem witness_PcAfterEachInstruction : (prog []).isFaulted = false ∧
    (∃ t, exec (.jnz (imm 1) (imm top)) (prog []) = .next t ∧ t.isFaulted = false) ∧
    ∃ t, exec (.jnz (imm 1) (imm (-1))) (prog []) = .next t ∧ t.isFaulted = true :=
  ⟨by decide, ⟨_, rfl, by decide⟩, _, rfl, by decide⟩
theorem witness_FaultCausesBelongToTheirInstructions : (prog []).isFaulted = false ∧
    (∃ t r, exec (.add (imm top) (imm 1) (cell 0)) (prog []) = .next t ∧ t.status = .faulted r ∧ r.cause = .arithmeticOverflow) ∧
    ∃ t r, exec (.jz (imm 0) (imm (-1))) (prog []) = .next t ∧ t.status = .faulted r ∧
      r.cause = .addressFault .negativeJumpTarget :=
  ⟨by decide, ⟨_, _, rfl, rfl, rfl⟩, _, _, rfl, rfl, rfl⟩
theorem witness_PcOutOfRangeOnlyInTheLastCell : ∃ t r, step (placed (Config.maxAddr - 1) [104, 5]) = .next t ∧
    t.status = .faulted r ∧ r.cause = .addressFault .pcOutOfRange := ⟨_, _, rfl, rfl, rfl⟩
theorem witness_FaultCodesAndClasses : (10, FaultClass.arithmeticOverflow, Cause.arithmeticOverflow) ∈
    [(10, FaultClass.arithmeticOverflow, Cause.arithmeticOverflow)] ∧ Cause.arithmeticOverflow.code = 10 := by decide
theorem witness_FaultEntryIsPrecise : ∃ t r, step (prog [1101, top, 1, 0]) = .next t ∧ t.status = .faulted r := ⟨_, _, rfl, rfl⟩
theorem witness_FaultedCoreRefusesAllButReinitAndStatus : someFault.isFaulted = true ∧ legalImage [bottom, top] = true ∧
    ∃ r t, command 0 (.op (.reinit [])) someFault = some (r, t) ∧ t ≠ someFault :=
  ⟨by decide, by decide, _, _, rfl, by decide⟩
theorem witness_FaultRecordMatchesTheCore : (∃ t, step (prog [0]) = .next t) ∧ someFault.recordMatches ∧
    ∃ r t, command 1 .run someFault = some (r, t) :=
  ⟨⟨_, rfl⟩, fun r h => by cases h; exact ⟨rfl, rfl⟩, _, _, rfl⟩

/-- A core behind whose ports a run ends by each result. -/
theorem witness_runs : run 2 (prog [104, 7, 99]) = some (.halted, { prog [104, 7, 99] with pc := 2, outlog := [7], status := .halted }) ∧
    run 1 (prog [3, 9]) = some (.awaitingInput, { prog [3, 9] with status := .awaitingInput }) ∧
    run 1 (prog [0]) = some (.fault ⟨.decodeFault .illegalOpcode, 0, 0, 0⟩, someFault) := by decide
theorem witness_StepIsOneTurnOfTheRun : (placed Config.maxAddr [99]).isFaulted = false ∧
    (placed Config.maxAddr [99]).pc ≤ Config.maxAddr := by decide
theorem witness_RunEndsAtTheInstructionThatEndedIt : ∃ n s r t, run n s = some (r, t) ∧ r = .awaitingInput :=
  ⟨_, _, _, _, witness_runs.2.1, rfl⟩
theorem witness_EndedRunRepeatsItsResult : ∃ n s r t, run n s = some (r, t) ∧ (r = .halted ∨ r = .awaitingInput) :=
  ⟨_, _, _, _, witness_runs.1, .inl rfl⟩
theorem witness_ResumeCompletesThePendingInput : (prog [3, 9]).Inv ∧
    run 1 (prog [3, 9]) = some (.awaitingInput, { prog [3, 9] with status := .awaitingInput }) ∧ InRange bottom ∧
    (prog [3, 9]).pc + 2 ≤ Config.maxAddr :=
  ⟨⟨by decide, by decide, by decide, by decide, by decide, by decide⟩, witness_runs.2.1, by decide, by decide⟩
theorem witness_RunHasAtMostOneEnd : ∃ s r t, RunEnds s r t := ⟨_, _, _, _, witness_runs.1⟩
theorem witness_HostReadsAndWritesAnyCell : (prog [1]).isFaulted = false ∧ (prog [1]).mem.wf ∧ (0 ≤ top ∧ top ≤ Config.maxAddr) ∧
    (InRange bottom ∧ ¬ InRange (bottom - 1)) ∧ ((-1 : Int) < 0 ∧ (Config.maxAddr : Int) < top + 1) := by decide
theorem witness_ReinitIsAcceptedInEveryStatus : ([bottom, top].length ≤ Config.maxAddr + 1 ∧ ∀ v ∈ [bottom, top], InRange v) ∧
    ∃ v ∈ [top + 1], ¬ InRange v := by decide
theorem witness_TakeLastOutputTakesTheNewest : (prog []).isFaulted = false ∧
    ({ prog [] with outlog := [1, 35] } : State).outlog = [1] ++ [35] ∧ (prog []).outlog = [] := by decide
theorem witness_DrainEqualsOutputsThenTakes : ({ prog [] with outlog := [1, 35] } : State).isFaulted = false ∧
    0 < ({ prog [] with outlog := [1, 35] } : State).outlog.length := by decide
theorem witness_AddInputAppendsAtTheBack : (prog []).isFaulted = false ∧ InRange top ∧ ¬ InRange (top + 1) := by decide
theorem witness_OperationsLeaveControlState : ∀ img, Operation.addInput 3 ≠ .reinit img := fun _ => nofun
theorem witness_CoresAreIndependent : ([prog [], someFault] : System)[0]? = some (prog []) ∧ (prog []).isFaulted = false ∧
    System.command 0 0 (.op (.addInput 5)) [prog [], someFault] = some (.done, [{ prog [] with inq := [5] }, someFault]) ∧
    ([prog [], someFault] : System)[0]? = ([prog []] : System)[0]? ∧
    (([prog [], someFault] : System)[1]? = some someFault ∧ someFault.isFaulted = true) := by decide
theorem witness_BusyPortRunsToTheRunsResult : (prog [104, 7, 99]).isFaulted = false ∧
    ∃ r t, run 2 (prog [104, 7, 99]) = some (r, t) := ⟨by decide, _, _, witness_runs.1⟩
theorem witness_ResponsesDoNotShowPcOrRelativeBase :
    (∃ r t, command 2 .run (prog [104, 7, 99]) = some (r, t) ∧ r = .result .halted) ∧
    ∃ r t, command 2 .run someFault = some (r, t) ∧ r = .refused .faulted := ⟨⟨_, _, rfl, rfl⟩, _, _, rfl, rfl⟩

end Sys2Proof.Tests
end

section
/-! PROOFS. What `pc` is after each instruction (10 R13): the sequential advance, the two jumps, and the ends of a run. -/

namespace Sys2Proof.Machine

variable {s t : State}

/-- The sequential advance of 10 R13: every instruction that commits, but the jumps, moves `pc` past its own cells. -/
theorem instrStep_ok_pc_sequential {i : Instr} (h : instrStep i s = .ok t) (hjnz : ∀ c g, i ≠ .jnz c g)
    (hjz : ∀ c g, i ≠ .jz c g) : t.pc = s.pc + i.length := by
  cases i with
  | add a b d => obtain ⟨_, _, _, -, -, -, -, -, rfl⟩ := addStep_ok.1 h; rfl
  | mul a b d => obtain ⟨_, _, _, -, -, -, -, -, rfl⟩ := mulStep_ok.1 h; rfl
  | lt a b d => obtain ⟨_, _, _, -, -, -, -, rfl⟩ := ltStep_ok.1 h; rfl
  | eq a b d => obtain ⟨_, _, _, -, -, -, -, rfl⟩ := eqStep_ok.1 h; rfl
  | inp d => obtain ⟨_, _, _, -, -, -, rfl⟩ := inpStep_ok.1 h; rfl
  | out a => obtain ⟨_, -, -, rfl⟩ := outStep_ok.1 h; rfl
  | arb a => obtain ⟨_, -, -, -, rfl⟩ := arbStep_ok.1 h; rfl
  | jnz c g => exact absurd rfl (hjnz c g)
  | jz c g => exact absurd rfl (hjz c g)
  | hlt => cases h

/-- `pc` after a `JNZ` that commits (43 R90). -/
theorem jnzStep_ok_pc {c g : Source} (h : jnzStep c g s = .ok t) :
    ∃ v0 v1, readParam c s = .ok v0 ∧ readParam g s = .ok v1 ∧
      (v0 ≠ 0 → (t.pc : Int) = v1) ∧ (v0 = 0 → t.pc = s.pc + 3) := by
  obtain ⟨v0, v1, h0, h1, ⟨hv, hnonneg, rfl⟩ | ⟨hv, -, rfl⟩⟩ := jnzStep_ok.1 h
  · exact ⟨v0, v1, h0, h1, fun _ => Int.toNat_of_nonneg hnonneg, fun hz => absurd hz hv⟩
  · exact ⟨v0, v1, h0, h1, fun hnz => absurd hv hnz, fun _ => rfl⟩

/-- `pc` after a `JZ` that commits (43 R91). -/
theorem jzStep_ok_pc {c g : Source} (h : jzStep c g s = .ok t) :
    ∃ v0 v1, readParam c s = .ok v0 ∧ readParam g s = .ok v1 ∧
      (v0 = 0 → (t.pc : Int) = v1) ∧ (v0 ≠ 0 → t.pc = s.pc + 3) := by
  obtain ⟨v0, v1, h0, h1, ⟨hv, hnonneg, rfl⟩ | ⟨hv, -, rfl⟩⟩ := jzStep_ok.1 h
  · exact ⟨v0, v1, h0, h1, fun _ => Int.toNat_of_nonneg hnonneg, fun hnz => absurd hv hnz⟩
  · exact ⟨v0, v1, h0, h1, fun hz => absurd hz hv, fun _ => rfl⟩

/-- A committing instruction leaves a core as unfaulted as it found it (10 R17). -/
theorem instrStep_ok_isFaulted {i : Instr} (h : instrStep i s = .ok t) : t.isFaulted = s.isFaulted := by
  simp only [State.isFaulted, instrStep_ok_status h]

@[simp] theorem State.endRun_fault_isFaulted (s : State) (c : Cause) (info : Int) :
    (s.endRun (.fault c info)).isFaulted = true := rfl

/-- Only a suspending `IN` and a `HLT` end a run without a fault (47 R106). -/
theorem instrStep_error_without_fault {i : Instr} {e : Stop} (h : instrStep i s = .error e)
    (hf : (s.endRun e).isFaulted = false) : ((∃ d, i = .inp d) ∧ s.inq = []) ∨ i = .hlt := by
  rcases instrStep_error h with ⟨_, _, rfl, -⟩ | ⟨_, rfl, -⟩ | ⟨_, rfl, -⟩ | ⟨rfl, -⟩ | ⟨-, hinp, hq⟩ | ⟨-, hhlt⟩
  iterate 4 · simp at hf
  · exact .inl ⟨hinp, hq⟩
  · exact .inr hhlt

/-- Settles O34: an instruction that commits advances or jumps, one that ends the run leaves `pc`, and only a suspending `IN`
and `HLT` do so without a fault. -/
theorem pcAfterEachInstruction : Obligations.PcAfterEachInstruction := by
  intro i s t hs h
  rcases exec_eq_next.1 h with hok | ⟨e, herr, rfl⟩
  · have hf : t.isFaulted = false := (instrStep_ok_isFaulted hok).trans hs
    refine ⟨fun hfaulted => absurd (hf.symm.trans hfaulted) Bool.false_ne_true, fun _ => ?_⟩
    cases i with
    | jnz c g => exact jnzStep_ok_pc hok
    | jz c g => exact jzStep_ok_pc hok
    | hlt => cases hok
    | inp d =>
      obtain ⟨_, _, _, -, hq, -⟩ := inpStep_ok.1 hok
      exact ⟨fun _ => instrStep_ok_pc_sequential hok nofun nofun, fun hnil => nomatch hq.symm.trans hnil⟩
    | add | mul | lt | eq | out | arb => exact instrStep_ok_pc_sequential hok nofun nofun
  · refine ⟨fun _ => s.endRun_pc e, fun hf => ?_⟩
    obtain ⟨⟨d, rfl⟩, hq⟩ | rfl := instrStep_error_without_fault herr hf
    · exact ⟨fun hne => absurd hq hne, fun _ => s.endRun_pc e⟩
    · exact s.endRun_pc e

end Sys2Proof.Machine
end

section
/-! PROOFS. The words the decoder takes and those it rejects: the 99 of 30 R59, and the five cases of 30 R62 in the order of R53. -/

namespace Sys2Proof

/-! ## Legal words -/

/-- A word decodes to a form exactly when it is the form's word (30 R59). -/
theorem decodeWord_eq_ok {w : Int} {f : Form} : decodeWord w = .ok f ↔ w = f.word :=
  ⟨decodeWord_ok, fun h => h ▸ decodeWord_word f⟩

/-- The three modes, in the order of their digits (30 R57). -/
def Mode.all : List Mode := [.position, .immediate, .relative]

/-- The two modes of a write target, in the order of their digits. -/
def TargetMode.all : List TargetMode := [.position, .relative]

theorem Mode.mem_all (m : Mode) : m ∈ Mode.all := by cases m <;> decide

theorem TargetMode.mem_all (m : TargetMode) : m ∈ TargetMode.all := by cases m <;> decide

/-- The forms of two value parameters, the lowest mode digit varying fastest as in the lists of 30 R59. -/
def Form.binary (mk : Mode → Mode → Form) : List Form := Mode.all.flatMap fun m1 => Mode.all.map fun m0 => mk m0 m1

/-- The forms of two value parameters and a write target, in the same order. -/
def Form.ternary (mk : Mode → Mode → TargetMode → Form) : List Form :=
  TargetMode.all.flatMap fun m2 => Form.binary fun m0 m1 => mk m0 m1 m2

/-- The forms of an operation, in the order in which 30 R59 lists their words. -/
def Opcode.forms : Opcode → List Form
  | .add => Form.ternary .add
  | .mul => Form.ternary .mul
  | .inp => TargetMode.all.map .inp
  | .out => Mode.all.map .out
  | .jnz => Form.binary .jnz
  | .jz => Form.binary .jz
  | .lt => Form.ternary .lt
  | .eq => Form.ternary .eq
  | .arb => Mode.all.map .arb
  | .hlt => [.hlt]

theorem Opcode.opcode_of_mem_forms (op : Opcode) : ∀ f ∈ op.forms, f.opcode = op := by cases op <;> decide

theorem Form.mem_forms_opcode (f : Form) : f ∈ f.opcode.forms := by
  cases f <;> simp [Form.opcode, Opcode.forms, Form.ternary, Form.binary, Mode.mem_all, TargetMode.mem_all]

theorem Opcode.mem_forms {op : Opcode} {f : Form} : f ∈ op.forms ↔ f.opcode = op :=
  ⟨op.opcode_of_mem_forms f, fun h => h ▸ f.mem_forms_opcode⟩

/-- The lists of 30 R59 are the words of the forms. -/
theorem legalWords_eq_map_word (op : Opcode) : legalWords op = op.forms.map Form.word := by cases op <;> rfl

theorem mem_legalWords {op : Opcode} {w : Int} : w ∈ legalWords op ↔ ∃ f, decodeWord w = .ok f ∧ f.opcode = op := by
  simp only [legalWords_eq_map_word, List.mem_map, Opcode.mem_forms, decodeWord_eq_ok, @eq_comm _ w, and_comm]

/-- No word is listed under two operations: it decodes to one form. -/
theorem legalWords_disjoint {op op' : Opcode} (h : op ≠ op') : List.Disjoint (legalWords op) (legalWords op') := by
  intro w hw hw'
  obtain ⟨f, hf, rfl⟩ := mem_legalWords.1 hw
  obtain ⟨f', hf', rfl⟩ := mem_legalWords.1 hw'
  rw [hf] at hf'
  cases hf'
  exact h rfl

theorem legalWords_nodup (op : Opcode) : (legalWords op).Nodup := by cases op <;> decide

theorem Opcode.all_nodup : Opcode.all.Nodup := by decide

theorem allLegalWords_nodup : (Opcode.all.flatMap legalWords).Nodup :=
  List.nodup_flatMap.2 ⟨fun op _ => legalWords_nodup op, Opcode.all_nodup.imp legalWords_disjoint⟩

/-- A word in none of the lists is rejected by the decoder (30 R59). -/
theorem decodeWord_error_of_not_listed {w : Int} (h : w ∉ Opcode.all.flatMap legalWords) : ∃ c, decodeWord w = .error c := by
  cases hw : decodeWord w with
  | error c => exact ⟨c, rfl⟩
  | ok f => exact absurd (List.mem_flatMap.2 ⟨_, f.opcode.mem_all, mem_legalWords.2 ⟨f, hw, rfl⟩⟩) h

/-! ## Illegal words, in the order of the decoder's tests (30 R53) -/

section
variable {w : Int} {op : Opcode}

/-- 30 R62 case 4. -/
theorem decodeWord_negativeWord (h : w < 0) : decodeWord w = .error .negativeWord := if_pos h

/-- 30 R62 case 1. -/
theorem decodeWord_illegalOpcode (h0 : 0 ≤ w) (h : w % 100 = 0 ∨ (10 ≤ w % 100 ∧ w % 100 ≤ 98)) :
    decodeWord w = .error .illegalOpcode := by
  have hnone : Opcode.ofNumber (w % 100).toNat = none :=
    Opcode.ofNumber_none fun op => by cases op <;> simp only [Opcode.number] <;> omega
  simp [decodeWord, Int.not_lt.2 h0, hnone]

/-- The digits above the opcode field, counted in the word and in what the loop of 30 R53 starts from. -/
theorem ediv_hundred_ediv_pow (w : Int) (k : Nat) : w / 100 / 10 ^ k = w / 10 ^ (2 + k) := by
  rw [Int.ediv_ediv_of_nonneg (by decide), pow_add]; rfl

/-- 30 R62 case 2. -/
theorem decodeWord_illegalMode (h0 : 0 ≤ w) (hop : w % 100 = op.number)
    (h : ∃ k < op.arity, 3 ≤ w / 10 ^ (2 + k) % 10) : decodeWord w = .error .illegalMode := by
  simp only [← ediv_hundred_ediv_pow] at h
  rw [decodeWord_op h0 hop, readModes_illegal h]

/-- Once the mode digits have passed, the excess digits decide, and then the form of the modes they select (30 R53). -/
theorem decodeWord_of_legal_modes (h0 : 0 ≤ w) (hop : w % 100 = op.number)
    (h : ∀ k < op.arity, w / 10 ^ (2 + k) % 10 ≤ 2) :
    ∃ ms : List Mode, (∀ k < op.arity, ((ms.getD k .position).digit : Int) = w / 10 ^ (2 + k) % 10) ∧
      decodeWord w = if w / 10 ^ (2 + op.arity) ≠ 0 then .error .excessDigits else Form.ofModes op ms := by
  simp only [← ediv_hundred_ediv_pow] at h ⊢
  obtain ⟨ms, hms, hdigit⟩ := readModes_legal h
  exact ⟨ms, hdigit, by rw [decodeWord_op h0 hop, hms]⟩

/-- 30 R62 case 5. -/
theorem decodeWord_excessDigits (h0 : 0 ≤ w) (hop : w % 100 = op.number)
    (h : ∀ k < op.arity, w / 10 ^ (2 + k) % 10 ≤ 2) (hx : w / 10 ^ (2 + op.arity) ≠ 0) :
    decodeWord w = .error .excessDigits := by
  obtain ⟨ms, -, hw⟩ := decodeWord_of_legal_modes h0 hop h
  rw [hw, if_pos hx]

theorem Opcode.writePos_lt_arity {k : Nat} (h : op.writePos = some k) : k < op.arity := by
  cases op <;> cases h <;> decide

theorem Mode.eq_immediate_of_digit {m : Mode} (h : m.digit = 1) : m = .immediate := by
  cases m <;> cases h; rfl

/-- No form has an Immediate write target (30 R56). -/
theorem Form.ofModes_immediate_target {k : Nat} {ms : List Mode} (hk : op.writePos = some k)
    (h : ms.getD k .position = .immediate) : Form.ofModes op ms = .error .immediateWriteTarget := by
  cases op <;> cases hk <;> simp only [Form.ofModes, h] <;> rfl

/-- 30 R62 case 3. -/
theorem decodeWord_immediateWriteTarget {k : Nat} (h0 : 0 ≤ w) (hop : w % 100 = op.number)
    (h : ∀ k < op.arity, w / 10 ^ (2 + k) % 10 ≤ 2) (hx : w / 10 ^ (2 + op.arity) = 0) (hk : op.writePos = some k)
    (hone : w / 10 ^ (2 + k) % 10 = 1) : decodeWord w = .error .immediateWriteTarget := by
  obtain ⟨ms, hdigit, hw⟩ := decodeWord_of_legal_modes h0 hop h
  have himm : ms.getD k .position = .immediate :=
    Mode.eq_immediate_of_digit (Int.ofNat_inj.1 ((hdigit k (Opcode.writePos_lt_arity hk)).trans hone))
  rw [hw, if_neg (not_not.2 hx), Form.ofModes_immediate_target hk himm]

end

end Sys2Proof

namespace Sys2Proof.Machine

/-- A word the decoder rejects is entered as its `DecodeFault` when a step fetches it (30 R62, 60 R160). -/
theorem step_of_decodeWord_error {s : State} {w : Word} {c : DecodeCause} (hf : s.isFaulted = false)
    (hp : s.pc ≤ Config.maxAddr) (hw : s.mem.read s.pc = w) (h : decodeWord w = .error c) :
    step s = .next (s.withFault (.decodeFault c) w) := by
  subst hw
  exact step_of_fault hf hp ((fetch_error hp).2 (.inl ⟨c, h, rfl⟩))

/-- Settles O9: the lists are the words of the forms, and a word decodes exactly when it is a form's. -/
theorem legalWordsAreExactlyTheNinetyNine : Obligations.LegalWordsAreExactlyTheNinetyNine := by
  refine ⟨rfl, allLegalWords_nodup, fun op w => mem_legalWords.symm, fun w hw => ?_⟩
  obtain ⟨c, hc⟩ := decodeWord_error_of_not_listed hw
  exact ⟨c, hc, fun s hf hp hs => step_of_decodeWord_error hf hp hs hc⟩

/-- Settles O10: each case of 30 R62 is a rejection of the decoder, and a step enters it. -/
theorem illegalWordsRaiseDecodeFault : Obligations.IllegalWordsRaiseDecodeFault := by
  intro s w hf hp hs
  have hstep {c : DecodeCause} (h : decodeWord w = .error c) : step s = .next (s.withFault (.decodeFault c) w) :=
    step_of_decodeWord_error hf hp hs h
  refine ⟨fun h => hstep (decodeWord_negativeWord h), fun h0 h => hstep (decodeWord_illegalOpcode h0 h), fun op h0 hop =>
    ⟨fun h => hstep (decodeWord_illegalMode h0 hop h), fun h => ⟨fun hx => hstep (decodeWord_excessDigits h0 hop h hx), ?_⟩⟩⟩
  exact fun hx k hk hone => hstep (decodeWord_immediateWriteTarget h0 hop h hx hk hone)

end Sys2Proof.Machine
end

section
/-! PROOFS. How parameters resolve (40): the checked effective address (R70), the value and the write address of each mode
(R71, R72), and the first parameter that fails (R73). -/

namespace Sys2Proof.Machine

variable {s : State}

/-! ## Effective addresses, values and write addresses -/

/-- The exact integer a parameter names, by mode (40 R70). -/
theorem rawAddress_eq_ite (m : TargetMode) (raw rb : Word) :
    rawAddress m raw rb = if m = .position then raw else raw + rb := by cases m <;> rfl

theorem effAddr_eq_checkAddr {m : TargetMode} {raw : Word} {a : Int} (h : a = if m = .position then raw else raw + s.rb) :
    effAddr m raw s = checkAddr a := by rw [h, ← rawAddress_eq_ite]; rfl

/-- Immediate mode makes no access and cannot fault (40 R71). -/
@[simp] theorem readParam_immediate (raw : Word) (s : State) : readParam ⟨.immediate, raw⟩ s = .ok raw := rfl

/-- In the two modes with an address, the value is the cell there (40 R71). -/
theorem readParam_addressed (m : TargetMode) (raw : Word) (s : State) :
    readParam ⟨m.mode, raw⟩ s = (effAddr m raw s).map s.mem.read := by cases m <;> rfl

theorem writeAddr_eq_effAddr (m : TargetMode) (raw : Word) (s : State) : writeAddr ⟨m, raw⟩ s = effAddr m raw s := rfl

/-! ## Resolution in order -/

/-- Two value parameters before anything else: the first that fails ends the instruction (40 R73). -/
theorem resolveTwo_error {α : Type} {a b : Source} {e : Stop} {k : Word → Word → Except Stop α}
    (h : readParam a s = .error e ∨ ∃ v0, readParam a s = .ok v0 ∧ readParam b s = .error e) :
    (do let v0 ← readParam a s; let v1 ← readParam b s; k v0 v1) = .error e := by
  obtain ha | ⟨v0, ha, hb⟩ := h
  · rw [ha, error_bind]
  · rw [ha, ok_bind, hb, error_bind]

/-- Two value parameters and then a write target before anything else (40 R73). -/
theorem resolveThree_error {α : Type} {a b : Source} {d : Target} {e : Stop} {k : Word → Word → Nat → Except Stop α}
    (h : readParam a s = .error e ∨ (∃ v0, readParam a s = .ok v0 ∧ readParam b s = .error e) ∨
      ∃ v0 v1, readParam a s = .ok v0 ∧ readParam b s = .ok v1 ∧ writeAddr d s = .error e) :
    (do let v0 ← readParam a s; let v1 ← readParam b s; let wa ← writeAddr d s; k v0 v1 wa) = .error e := by
  obtain ha | hb | ⟨v0, v1, ha, hb, hd⟩ := h
  · exact resolveTwo_error (.inl ha)
  · exact resolveTwo_error (.inr hb)
  · rw [ha, ok_bind, hb, ok_bind, hd, error_bind]

/-- Settles O17: every instruction resolves all its parameters before its effect, so the first to fail is its fault. -/
theorem parametersResolveEagerlyInOrder : Obligations.ParametersResolveEagerlyInOrder := by
  refine fun s c info => ⟨?_, ?_, ?_, ?_⟩
  · rintro op (rfl | rfl | rfl | rfl) a b d h <;> exact exec_of_fault (resolveThree_error h)
  · rintro op (rfl | rfl) a b h <;> exact exec_of_fault (resolveTwo_error h)
  · exact fun d h => exec_of_fault (bind_eq_error.2 (.inl h))
  · rintro op (rfl | rfl) a h <;> exact exec_of_fault (bind_eq_error.2 (.inl h))

/-- Settles O15: the effective address is the exact sum after `CheckAddr`. -/
theorem effectiveAddressIsCheckedNotWrapped : Obligations.EffectiveAddressIsCheckedNotWrapped := by
  intro m raw s a ha
  rw [effAddr_eq_checkAddr ha]
  exact ⟨fun hneg => checkAddr_error.2 (.inl ⟨hneg, rfl⟩), fun hbig => checkAddr_error.2 (.inr ⟨hbig, rfl⟩),
    fun hnonneg hle => checkAddr_ok.2 ⟨hnonneg, hle, rfl⟩⟩

/-- Settles O16: value and write target go through the one effective address, its faults included. -/
theorem parametersResolveByMode : Obligations.ParametersResolveByMode := by
  refine fun raw s => ⟨readParam_immediate raw s, fun m a h => ?_, fun m e h => ?_⟩
  · rw [readParam_addressed, writeAddr_eq_effAddr, h]
    exact ⟨map_ok _ _, rfl⟩
  · rw [readParam_addressed, writeAddr_eq_effAddr, h]
    exact ⟨map_error _ _, rfl⟩

end Sys2Proof.Machine
end

section
/-! PROOFS. `ADD` and `MUL` (41): their encodings (R80, R81), and what they do with an exact result once their parameters are
resolved (R82). -/

namespace Sys2Proof

/-! ## Encodings -/

/-- Decoding an encoded instruction gives it back, with the cells that follow it (30 R50, R51). -/
theorem decode_encode_append (i : Instr) (rest : List Word) : decode (encode i ++ rest) = .ok (i, rest) := by
  rw [encode, List.cons_append, decode_ok]
  refine ⟨i.form, decodeWord_word _, by simp, (i.form_instr _ fun k hk => ?_).symm, ?_⟩
  · rw [List.getD_append _ _ _ _ hk, List.getD_eq_getElem _ _ hk]
  · rw [← i.raws_length, List.drop_left]

theorem decode_encode (i : Instr) : decode (encode i) = .ok (i, []) := by
  simpa using decode_encode_append i []

theorem Mode.digit_eq_numeral (m : Mode) : (m.digit : Int) = m.numeral := by cases m <;> rfl

theorem TargetMode.numeral_mode (m : TargetMode) : m.mode.numeral = m.numeral := by cases m <;> rfl

/-- The instruction word of format `F3`: two value parameters and a write target (30 R54, R64). -/
theorem Form.word_of_modes {f : Form} {m0 m1 : Mode} {m2 : TargetMode} (h : f.modes = [m0, m1, m2.mode]) :
    f.word = f.opcode.number + 100 * m0.numeral + 1000 * m1.numeral + 10000 * m2.numeral := by
  simp [Form.word, h, Mode.digit_eq_numeral, TargetMode.numeral_mode]

/-- An instruction of format `F3` is decoded from its word, written by its digits, and its raw values (30 R54). -/
theorem decode_of_modes {i : Instr} {m0 m1 : Mode} {m2 : TargetMode} (h : i.form.modes = [m0, m1, m2.mode]) :
    decode ((i.form.opcode.number + 100 * m0.numeral + 1000 * m1.numeral + 10000 * m2.numeral) :: i.raws) = .ok (i, []) := by
  rw [← Form.word_of_modes h]
  exact decode_encode i

end Sys2Proof

namespace Sys2Proof.Machine

variable {s : State}

/-! ## Resolved parameters -/

/-- Two value parameters and a write target that resolve are passed on (40 R73). -/
theorem resolveThree_ok {α : Type} {a b : Source} {d : Target} {v0 v1 : Word} {wa : Nat} {k : Word → Word → Nat → Except Stop α}
    (h0 : readParam a s = .ok v0) (h1 : readParam b s = .ok v1) (hw : writeAddr d s = .ok wa) :
    (do let v0 ← readParam a s; let v1 ← readParam b s; let wa ← writeAddr d s; k v0 v1 wa) = k v0 v1 wa := by
  rw [h0, ok_bind, h1, ok_bind, hw, ok_bind]

/-- An instruction that commits one stored cell and a new `pc` to a state `u` changes nothing else of it (10 R13). -/
theorem exec_of_store {i : Instr} {u : State} {wa n : Nat} {v : Word} (hwf : u.mem.wf)
    (h : instrStep i s = .ok ((u.store wa v).setPc n)) :
    ∃ t, exec i s = .next t ∧ t.mem.read wa = v ∧ (∀ x, x ≠ wa → t.mem.read x = u.mem.read x) ∧ t.mem.wf ∧
      t = { u with mem := t.mem, pc := n } :=
  ⟨_, exec_of_ok h, Memory.read_write_same hwf wa v, fun _ hx => Memory.read_write_other _ v hx, Memory.write_wf hwf wa v, rfl⟩

/-! ## The exact result -/

/-- What `ADD` and `MUL` do with the exact result `r` and the resolved target `wa` (41 R80, R81). -/
def storeResult (wa : Nat) (r : Int) (s : State) : Except Stop State := do
  let v ← checkResult r
  checkNextPc (s.pc + 4)
  return (s.store wa v).setPc (s.pc + 4)

section
variable {a b : Source} {d : Target} {v0 v1 : Int} {wa : Nat}

theorem addStep_of_resolved (h0 : readParam a s = .ok v0) (h1 : readParam b s = .ok v1) (hw : writeAddr d s = .ok wa) :
    instrStep (.add a b d) s = storeResult wa (v0 + v1) s := resolveThree_ok h0 h1 hw

theorem mulStep_of_resolved (h0 : readParam a s = .ok v0) (h1 : readParam b s = .ok v1) (hw : writeAddr d s = .ok wa) :
    instrStep (.mul a b d) s = storeResult wa (v0 * v1) s := resolveThree_ok h0 h1 hw

end

section
variable {wa : Nat} {r : Int}

theorem storeResult_ok (hr : InRange r) (hp : s.pc + 4 ≤ Config.maxAddr) :
    storeResult wa r s = .ok ((s.store wa r).setPc (s.pc + 4)) := by
  rw [storeResult, checkResult_ok.2 ⟨hr, rfl⟩, ok_bind, checkNextPc_ok (u := ()).2 hp]; rfl

/-- The range test comes before the test of the next `pc` (41 R80, R82). -/
theorem storeResult_overflow (hr : ¬ InRange r) : storeResult wa r s = .error (.fault .arithmeticOverflow r) :=
  bind_eq_error.2 (.inl (checkResult_error.2 ⟨hr, rfl⟩))

theorem storeResult_pcOutOfRange (hr : InRange r) (hp : Config.maxAddr < s.pc + 4) :
    storeResult wa r s = .error (.fault (.addressFault .pcOutOfRange) (s.pc + 4 : Nat)) :=
  bind_eq_error.2 (.inr ⟨r, checkResult_ok.2 ⟨hr, rfl⟩, bind_eq_error.2 (.inl (checkNextPc_error.2 ⟨hp, rfl⟩))⟩)

/-- An instruction that stores an exact result: committed, overflowing, or with its next `pc` out of range (41 R82, 47 R107). -/
theorem exec_of_storeResult {i : Instr} (hwf : s.mem.wf) (h : instrStep i s = storeResult wa r s) :
    (InRange r → s.pc + 4 ≤ Config.maxAddr → ∃ t, exec i s = .next t ∧
      t.mem.read wa = r ∧ (∀ x, x ≠ wa → t.mem.read x = s.mem.read x) ∧ t.mem.wf ∧
      t = { s with mem := t.mem, pc := s.pc + 4 }) ∧
    (¬ InRange r → exec i s = .next (s.withFault .arithmeticOverflow r)) ∧
    (InRange r → Config.maxAddr < s.pc + 4 → exec i s = .next (s.withFault (.addressFault .pcOutOfRange) (s.pc + 4))) :=
  ⟨fun hr hp => exec_of_store hwf (h.trans (storeResult_ok hr hp)),
    fun hr => exec_of_fault (h.trans (storeResult_overflow hr)),
    fun hr hp => exec_of_fault (h.trans (storeResult_pcOutOfRange hr hp))⟩

end

/-- Settles O19: the word is the encoder's, and the resolved `ADD` stores its exact sum or faults. -/
theorem addStoresTheSum : Obligations.AddStoresTheSum :=
  ⟨fun a b d => decode_of_modes (i := .add a b d) rfl,
    fun _ _ _ _ _ _ _ hwf h0 h1 hw => exec_of_storeResult hwf (addStep_of_resolved h0 h1 hw)⟩

/-- Settles O20: the word is the encoder's, and the resolved `MUL` stores its exact product or faults. -/
theorem mulStoresTheProduct : Obligations.MulStoresTheProduct :=
  ⟨fun a b d => decode_of_modes (i := .mul a b d) rfl,
    fun _ _ _ _ _ _ _ hwf h0 h1 hw => exec_of_storeResult hwf (mulStep_of_resolved h0 h1 hw)⟩

end Sys2Proof.Machine
end

section
/-! PROOFS. `IN` and `OUT` (42): their encodings and the answers of each once its parameter is resolved (R85, R86). -/

namespace Sys2Proof

/-! ## Encodings -/

/-- The instruction word of a format with one parameter (30 R54, R64). -/
theorem Form.word_of_mode {f : Form} {m : Mode} (h : f.modes = [m]) : f.word = f.opcode.number + 100 * m.numeral := by
  simp [Form.word, h, Mode.digit_eq_numeral, Mode.numeral]

/-- An instruction of one parameter is decoded from its word, written by its digits, and its raw value (30 R54). -/
theorem decode_of_mode {i : Instr} {m : Mode} (h : i.form.modes = [m]) :
    decode ((i.form.opcode.number + 100 * m.numeral) :: i.raws) = .ok (i, []) := by
  rw [← Form.word_of_mode h]
  exact decode_encode i

theorem decode_inp (d : Target) : decode [3 + 100 * d.mode.numeral, d.raw] = .ok (.inp d, []) := by
  rw [← TargetMode.numeral_mode]
  exact decode_of_mode (i := .inp d) rfl

theorem decode_out (a : Source) : decode [4 + 100 * a.mode.numeral, a.raw] = .ok (.out a, []) :=
  decode_of_mode (i := .out a) rfl

/-- The word of `IN` with an Immediate target (30 R56, 42 R85). -/
theorem decodeWord_inp_immediate : decodeWord 103 = .error .immediateWriteTarget :=
  decodeWord_immediateWriteTarget (op := .inp) (k := 0) (by decide) rfl (by decide) rfl rfl rfl

end Sys2Proof

namespace Sys2Proof.Machine

variable {s : State}

/-- Whatever follows it, the test of the next `pc` ends an instruction that would leave the address space (47 R107). -/
theorem checkNextPc_bind_error {α : Type} {n : Nat} {k : Unit → Except Stop α} (hp : Config.maxAddr < n) :
    (checkNextPc n >>= k) = .error (.fault (.addressFault .pcOutOfRange) n) :=
  bind_eq_error.2 (.inl (checkNextPc_error.2 ⟨hp, rfl⟩))

/-- An instruction that suspends changes `status` and nothing else (42 R85, 47 R108). -/
theorem exec_of_awaitingInput {i : Instr} (h : instrStep i s = .error .awaitingInput) :
    exec i s = .next { s with status := .awaitingInput } :=
  exec_eq_next.2 (.inr ⟨_, h, rfl⟩)

/-! ## `IN` -/

section
variable {d : Target} {wa : Nat}

/-- The address is resolved before the queue is tested (40 R73, 42 R85). -/
theorem inpStep_of_unresolved {e : Stop} (hw : writeAddr d s = .error e) : inpStep d s = .error e :=
  bind_eq_error.2 (.inl hw)

theorem inpStep_of_nil (hw : writeAddr d s = .ok wa) (hq : s.inq = []) : inpStep d s = .error .awaitingInput := by
  rw [inpStep, hw, ok_bind, hq]

/-- The next `pc` is tested only when there is a value to take (42 R85). -/
theorem inpStep_pcOutOfRange (hw : writeAddr d s = .ok wa) (hq : s.inq ≠ []) (hp : Config.maxAddr < s.pc + 2) :
    inpStep d s = .error (.fault (.addressFault .pcOutOfRange) (s.pc + 2 : Nat)) := by
  obtain ⟨v, rest, hq⟩ := List.exists_cons_of_ne_nil hq
  rw [inpStep, hw, ok_bind, hq]
  exact checkNextPc_bind_error hp

end

/-- Settles O21: the word is the encoder's, and `IN` suspends, takes the front value or faults. -/
theorem inTakesTheFrontOrSuspends : Obligations.InTakesTheFrontOrSuspends := by
  refine ⟨decode_inp, decodeWord_inp_immediate, fun d s wa hwf hw => ⟨?_, ?_, ?_⟩, ?_⟩
  · exact fun hq => exec_of_awaitingInput (inpStep_of_nil hw hq)
  · exact fun v rest hq hp => exec_of_store (u := s.setInq rest) hwf (inpStep_ok.2 ⟨wa, v, rest, hw, hq, hp, rfl⟩)
  · exact fun hq hp => exec_of_fault (inpStep_pcOutOfRange hw hq hp)
  · exact fun d s c info hw => exec_of_fault (inpStep_of_unresolved hw)

/-! ## `OUT` -/

theorem outStep_pcOutOfRange {a : Source} {v0 : Word} (h0 : readParam a s = .ok v0) (hp : Config.maxAddr < s.pc + 2) :
    outStep a s = .error (.fault (.addressFault .pcOutOfRange) (s.pc + 2 : Nat)) := by
  rw [outStep, h0, ok_bind]
  exact checkNextPc_bind_error hp

/-- Settles O22: the word is the encoder's, and the resolved `OUT` appends its value or faults. -/
theorem outAppendsTheValue : Obligations.OutAppendsTheValue := by
  refine ⟨decode_out, fun a s v0 h0 => ⟨fun hp => ?_, fun hp => ?_⟩⟩
  · exact exec_of_ok (outStep_ok.2 ⟨v0, h0, hp, rfl⟩)
  · exact exec_of_fault (outStep_pcOutOfRange h0 hp)

end Sys2Proof.Machine
end

section
/-! PROOFS. `JNZ` and `JZ` (43): their encodings, and what each does once both its parameters are resolved (R90, R91). -/

namespace Sys2Proof

/-! ## Encodings -/

/-- The instruction word of a format with two value parameters (30 R54, R64). -/
theorem Form.word_of_two_modes {f : Form} {m0 m1 : Mode} (h : f.modes = [m0, m1]) :
    f.word = f.opcode.number + 100 * m0.numeral + 1000 * m1.numeral := by
  simp [Form.word, h, Mode.digit_eq_numeral, Mode.numeral]

/-- An instruction of two value parameters is decoded from its word, written by its digits, and its raw values (30 R54). -/
theorem decode_of_two_modes {i : Instr} {m0 m1 : Mode} (h : i.form.modes = [m0, m1]) :
    decode ((i.form.opcode.number + 100 * m0.numeral + 1000 * m1.numeral) :: i.raws) = .ok (i, []) := by
  rw [← Form.word_of_two_modes h]
  exact decode_encode i

end Sys2Proof

namespace Sys2Proof.Machine

variable {s : State}

/-! ## The condition and the resolved target -/

theorem nonZero_of_ne {v : Word} (h : v ≠ 0) : nonZero v = true := decide_eq_true h

@[simp] theorem nonZero_zero : nonZero 0 = false := rfl

/-- Two value parameters that resolve are passed on (40 R73). -/
theorem resolveTwo_ok {α : Type} {a b : Source} {v0 v1 : Word} {k : Word → Word → Except Stop α}
    (h0 : readParam a s = .ok v0) (h1 : readParam b s = .ok v1) :
    (do let v0 ← readParam a s; let v1 ← readParam b s; k v0 v1) = k v0 v1 := by
  rw [h0, ok_bind, h1, ok_bind]

/-- What a taken jump does with its resolved target (43 R92). -/
def takeJump (target : Word) (s : State) : Except Stop State := do
  let n ← jumpTarget target
  return s.setPc n

/-- What a jump that is not taken does (43 R90, R91). -/
def passJump (s : State) : Except Stop State := do
  checkNextPc (s.pc + 3)
  return s.setPc (s.pc + 3)

section
variable {c t : Source} {v0 v1 : Int} (h0 : readParam c s = .ok v0) (h1 : readParam t s = .ok v1)
include h0 h1

theorem jnzStep_of_ne_zero (hv : v0 ≠ 0) : jnzStep c t s = takeJump v1 s :=
  (resolveTwo_ok h0 h1).trans (if_pos (nonZero_of_ne hv))

theorem jnzStep_of_zero (hv : v0 = 0) : jnzStep c t s = passJump s := by
  subst hv
  exact (resolveTwo_ok h0 h1).trans (if_neg (by simp))

theorem jzStep_of_zero (hv : v0 = 0) : jzStep c t s = takeJump v1 s := by
  subst hv
  exact (resolveTwo_ok h0 h1).trans (if_neg (by simp))

theorem jzStep_of_ne_zero (hv : v0 ≠ 0) : jzStep c t s = passJump s :=
  (resolveTwo_ok h0 h1).trans (if_pos (nonZero_of_ne hv))

end

/-! ## The jump taken and not taken -/

section
variable {target : Word}

theorem takeJump_ok (h : 0 ≤ target) : takeJump target s = .ok (s.setPc target.toNat) := by
  rw [takeJump, jumpTarget_ok.2 ⟨h, rfl⟩]; rfl

theorem takeJump_negative (h : target < 0) : takeJump target s = .error (.fault (.addressFault .negativeJumpTarget) target) :=
  bind_eq_error.2 (.inl (jumpTarget_error.2 ⟨h, rfl⟩))

theorem passJump_ok (hp : s.pc + 3 ≤ Config.maxAddr) : passJump s = .ok (s.setPc (s.pc + 3)) := by
  rw [passJump, checkNextPc_ok (u := ()).2 hp]; rfl

theorem passJump_pcOutOfRange (hp : Config.maxAddr < s.pc + 3) :
    passJump s = .error (.fault (.addressFault .pcOutOfRange) (s.pc + 3 : Nat)) :=
  checkNextPc_bind_error hp

/-- An instruction that jumps under one condition and passes under another: the result or the fault of each (43 R90, R91). -/
theorem exec_of_jump {i : Instr} {taken passed : Prop} (ht : taken → instrStep i s = takeJump target s)
    (hn : passed → instrStep i s = passJump s) :
    (taken → 0 ≤ target → exec i s = .next { s with pc := target.toNat }) ∧
    (taken → target < 0 → exec i s = .next (s.withFault (.addressFault .negativeJumpTarget) target)) ∧
    (passed → s.pc + 3 ≤ Config.maxAddr → exec i s = .next { s with pc := s.pc + 3 }) ∧
    (passed → Config.maxAddr < s.pc + 3 → exec i s = .next (s.withFault (.addressFault .pcOutOfRange) (s.pc + 3))) :=
  ⟨fun hc h => exec_of_ok ((ht hc).trans (takeJump_ok h)),
    fun hc h => exec_of_fault ((ht hc).trans (takeJump_negative h)),
    fun hc hp => exec_of_ok ((hn hc).trans (passJump_ok hp)),
    fun hc hp => exec_of_fault ((hn hc).trans (passJump_pcOutOfRange hp))⟩

end

/-- Settles O23: the word is the encoder's, and the resolved `JNZ` takes its jump on any value but 0; the target is resolved first. -/
theorem jnzJumpsWhenNotZero : Obligations.JnzJumpsWhenNotZero :=
  ⟨fun c t => decode_of_two_modes (i := .jnz c t) rfl,
    fun _ _ _ _ _ h0 h1 => exec_of_jump (jnzStep_of_ne_zero h0 h1) (jnzStep_of_zero h0 h1),
    fun _ _ _ v0 _ _ h0 h1 => exec_of_fault (resolveTwo_error (.inr ⟨v0, h0, h1⟩))⟩

/-- Settles O24: the word is the encoder's, and the resolved `JZ` takes its jump on 0 alone; the target is resolved first. -/
theorem jzJumpsWhenZero : Obligations.JzJumpsWhenZero :=
  ⟨fun c t => decode_of_two_modes (i := .jz c t) rfl,
    fun _ _ _ _ _ h0 h1 => exec_of_jump (jzStep_of_zero h0 h1) (jzStep_of_ne_zero h0 h1),
    fun _ _ _ v0 _ _ h0 h1 => exec_of_fault (resolveTwo_error (.inr ⟨v0, h0, h1⟩))⟩

end Sys2Proof.Machine
end

section
/-! PROOFS. `LT` and `EQ` (44): the 1 or 0 a comparison gives, and what both do with it once their parameters are resolved
(R95, R96). -/

namespace Sys2Proof.Machine

variable {s : State}

/-! ## The value of a comparison -/

section
variable {v0 v1 : Word}

theorem lessThan_of_lt (h : v0 < v1) : lessThan v0 v1 = 1 := if_pos (decide_eq_true h)

theorem lessThan_of_le (h : v1 ≤ v0) : lessThan v0 v1 = 0 := if_neg (by simpa using h)

theorem equalTo_of_eq (h : v0 = v1) : equalTo v0 v1 = 1 := if_pos (decide_eq_true h)

theorem equalTo_of_ne (h : v0 ≠ v1) : equalTo v0 v1 = 0 := if_neg (by simpa using h)

end

/-! ## The result stored -/

/-- What `LT` and `EQ` do with the value `r` of their comparison and the resolved target `wa` (44 R95, R96). -/
def storeComparison (wa : Nat) (r : Word) (s : State) : Except Stop State := do
  checkNextPc (s.pc + 4)
  return (s.store wa r).setPc (s.pc + 4)

section
variable {a b : Source} {d : Target} {v0 v1 : Int} {wa : Nat}

theorem ltStep_of_resolved (h0 : readParam a s = .ok v0) (h1 : readParam b s = .ok v1) (hw : writeAddr d s = .ok wa) :
    instrStep (.lt a b d) s = storeComparison wa (lessThan v0 v1) s := resolveThree_ok h0 h1 hw

theorem eqStep_of_resolved (h0 : readParam a s = .ok v0) (h1 : readParam b s = .ok v1) (hw : writeAddr d s = .ok wa) :
    instrStep (.eq a b d) s = storeComparison wa (equalTo v0 v1) s := resolveThree_ok h0 h1 hw

end

section
variable {wa : Nat} {r : Word}

theorem storeComparison_ok (hp : s.pc + 4 ≤ Config.maxAddr) :
    storeComparison wa r s = .ok ((s.store wa r).setPc (s.pc + 4)) := by
  rw [storeComparison, checkNextPc_ok (u := ()).2 hp]; rfl

theorem storeComparison_pcOutOfRange (hp : Config.maxAddr < s.pc + 4) :
    storeComparison wa r s = .error (.fault (.addressFault .pcOutOfRange) (s.pc + 4 : Nat)) :=
  checkNextPc_bind_error hp

/-- An instruction that stores the value of a comparison, 1 under one condition and 0 under another: committed either way, or
with its next `pc` out of range (44 R95, R96, 47 R107). -/
theorem exec_of_storeComparison {i : Instr} {holds fails : Prop} (hwf : s.mem.wf) (h : instrStep i s = storeComparison wa r s)
    (hone : holds → r = 1) (hzero : fails → r = 0) :
    (s.pc + 4 ≤ Config.maxAddr → ∃ t, exec i s = .next t ∧
      (holds → t.mem.read wa = 1) ∧ (fails → t.mem.read wa = 0) ∧
      (∀ x, x ≠ wa → t.mem.read x = s.mem.read x) ∧ t.mem.wf ∧ t = { s with mem := t.mem, pc := s.pc + 4 }) ∧
    (Config.maxAddr < s.pc + 4 → exec i s = .next (s.withFault (.addressFault .pcOutOfRange) (s.pc + 4))) := by
  refine ⟨fun hp => ?_, fun hp => exec_of_fault (h.trans (storeComparison_pcOutOfRange hp))⟩
  obtain ⟨t, hexec, hread, hframe⟩ := exec_of_store hwf (h.trans (storeComparison_ok hp))
  exact ⟨t, hexec, fun hc => hread.trans (hone hc), fun hc => hread.trans (hzero hc), hframe⟩

end

/-- Settles O25: the word is the encoder's, and the resolved `LT` stores its signed comparison or faults. -/
theorem ltStoresOneOrZero : Obligations.LtStoresOneOrZero :=
  ⟨fun a b d => decode_of_modes (i := .lt a b d) rfl,
    fun _ _ _ _ _ _ _ hwf h0 h1 hw =>
      exec_of_storeComparison hwf (ltStep_of_resolved h0 h1 hw) lessThan_of_lt lessThan_of_le⟩

/-- Settles O26: the word is the encoder's, and the resolved `EQ` stores its test of equality or faults. -/
theorem eqStoresOneOrZero : Obligations.EqStoresOneOrZero :=
  ⟨fun a b d => decode_of_modes (i := .eq a b d) rfl,
    fun _ _ _ _ _ _ _ hwf h0 h1 hw =>
      exec_of_storeComparison hwf (eqStep_of_resolved h0 h1 hw) equalTo_of_eq equalTo_of_ne⟩

end Sys2Proof.Machine
end

section
/-! PROOFS. `ARB` (45): its encoding, and what it does once its operand is resolved through the old `rb` (R100). -/

namespace Sys2Proof.Machine

variable {s : State} {a : Source} {v0 : Int}

/-! ## The two own faults of `ARB` -/

/-- The sum is tested before the next `pc` (45 R100). -/
theorem arbStep_overflow (h0 : readParam a s = .ok v0) (hr : ¬ InRange (s.rb + v0)) :
    arbStep a s = .error (.fault .arithmeticOverflow (s.rb + v0)) := by
  rw [arbStep, h0, ok_bind]
  exact bind_eq_error.2 (.inl (checkResult_error.2 ⟨hr, rfl⟩))

/-- A sum in range is not committed when the next `pc` leaves the address space (45 R100, 47 R107). -/
theorem arbStep_pcOutOfRange (h0 : readParam a s = .ok v0) (hr : InRange (s.rb + v0)) (hp : Config.maxAddr < s.pc + 2) :
    arbStep a s = .error (.fault (.addressFault .pcOutOfRange) (s.pc + 2 : Nat)) := by
  rw [arbStep, h0, ok_bind, checkResult_ok.2 ⟨hr, rfl⟩, ok_bind]
  exact checkNextPc_bind_error hp

/-- Settles O27: the word is the encoder's, and the resolved `ARB` adds its operand to `rb` or faults. -/
theorem arbAddsToTheRelativeBase : Obligations.ArbAddsToTheRelativeBase := by
  refine ⟨fun a => decode_of_mode (i := .arb a) rfl, fun a s v0 h0 => ⟨fun hr hp => ?_, fun hr => ?_, fun hr hp => ?_⟩⟩
  · exact exec_of_ok (arbStep_ok.2 ⟨v0, h0, hr, hp, rfl⟩)
  · exact exec_of_fault (arbStep_overflow h0 hr)
  · exact exec_of_fault (arbStep_pcOutOfRange h0 hr hp)

end Sys2Proof.Machine
end

section
/-! PROOFS. `HLT` (46): its one word, and the run it ends in place (R103). -/

namespace Sys2Proof

/-- The word of `HLT` is 99, and no other word means it (30 R59, 46 R103). -/
theorem decodeWord_eq_hlt {w : Int} : decodeWord w = .ok .hlt ↔ w = 99 := decodeWord_eq_ok

/-- `HLT` has no parameters, so every digit above its opcode field is an excess digit (30 R62 case 5). -/
theorem decodeWord_hlt_excessDigits {w : Int} (h0 : 0 ≤ w) (hop : w % 100 = 99) (hne : w ≠ 99) :
    decodeWord w = .error .excessDigits := by
  have hx : w / 100 ≠ 0 := by omega
  exact decodeWord_excessDigits (op := .hlt) h0 hop nofun hx

end Sys2Proof

namespace Sys2Proof.Machine

variable {s : State}

/-- With no parameter cell to test, 99 is fetched as `HLT` at any `pc` (47 R106 phases 1 to 3). -/
theorem fetch_of_read_hlt (h : s.mem.read s.pc = 99) : fetch s = .ok .hlt := by
  rw [fetch, h, decodeAt_ok.2 (decodeWord_eq_hlt.2 rfl)]
  rfl

theorem coreStep_of_read_hlt (h : s.mem.read s.pc = 99) : coreStep s = .error .halted :=
  coreStep_of_fetch (fetch_of_read_hlt h)

/-- `RUN` whose first instruction ends the run responds with that end, whatever further fuel it has (47 R108, 48 R122). -/
theorem runCommand_succ_error {e : Stop} (hf : s.isFaulted = false) (h : coreStep s = .error e) (n : Nat) :
    runCommand (n + 1) s = some (.result (e.result s), s.endRun e) := by
  simp [runCommand, hf, run_succ_error h]

/-- Settles O28: 99 is the word of `HLT`, and `HLT` ends the run it is fetched in with `status` alone changed. -/
theorem hltEndsTheRunInPlace : Obligations.HltEndsTheRunInPlace :=
  ⟨fun _ => decodeWord_eq_hlt, fun _ => decodeWord_hlt_excessDigits, fun _ => exec_eq_next.2 (.inr ⟨.halted, rfl, rfl⟩),
    fun _ n hf h => runCommand_succ_error hf (coreStep_of_read_hlt h) n⟩

end Sys2Proof.Machine
end

section
/-! PROOFS. The host's access to single cells and to the two queues (48 R123, R124, R126, R127, R129), on a core with no fault
recorded: what each operation responds and changes when its arguments are legal, and its refusal when they are not (48 R128). -/

namespace Sys2Proof.Machine

variable {s : State}

/-! ## `READ` and `WRITE` -/

theorem not_validAddress {a : Int} (h : a < 0 ∨ (Config.maxAddr : Int) < a) : ¬ validAddress a := by
  rw [validAddress_iff]
  omega

theorem operate_read {a : Int} (hf : s.isFaulted = false) (ha : validAddress a) :
    operate (.read a) s = (.value (s.mem.read a.toNat), s) :=
  (operate_of_not_faulted hf _).trans (if_pos ha)

theorem operate_read_refused {a : Int} (hf : s.isFaulted = false) (ha : ¬ validAddress a) :
    operate (.read a) s = (.refused .argument, s) :=
  (operate_of_not_faulted hf _).trans (if_neg ha)

theorem operate_write {a v : Int} (hf : s.isFaulted = false) (ha : validAddress a) (hv : InRange v) :
    operate (.write a v) s = (.done, s.store a.toNat v) :=
  (operate_of_not_faulted hf _).trans (if_pos ⟨ha, hv⟩)

theorem operate_write_refused {a v : Int} (hf : s.isFaulted = false) (h : ¬ (validAddress a ∧ InRange v)) :
    operate (.write a v) s = (.refused .argument, s) :=
  (operate_of_not_faulted hf _).trans (if_neg h)

/-- Settles O46: a read and a store at any address, and the refusals of a bad address or value; the frame of the store is that of
`Memory.write`. -/
theorem hostReadsAndWritesAnyCell : Obligations.HostReadsAndWritesAnyCell := by
  refine fun s hf hwf => ⟨fun a h0 h1 => ?_, fun a ha => ?_, fun a v hv => ?_⟩
  · have ha : validAddress a := (validAddress_iff a).2 ⟨h0, h1⟩
    exact ⟨operate_read hf ha, fun v hv => ⟨_, operate_write hf ha hv, rfl, Memory.write_wf hwf _ _,
      Memory.read_write_same hwf _ _, fun _ hb => Memory.read_write_other _ _ hb⟩⟩
  · have hna := not_validAddress ha
    exact ⟨operate_read_refused hf hna, fun v => operate_write_refused hf fun h => hna h.1⟩
  · exact operate_write_refused hf fun h => hv h.2

/-! ## The output log -/

theorem operate_takeLastOutput_concat {older : List Int} {v : Int} (hf : s.isFaulted = false) (h : s.outlog = older ++ [v]) :
    operate .takeLastOutput s = (.value v, { s with outlog := older }) := by
  rw [operate_of_not_faulted hf, perform, takeLastOp, h, List.getLast?_concat, List.dropLast_concat]

theorem operate_takeLastOutput_nil (hf : s.isFaulted = false) (h : s.outlog = []) :
    operate .takeLastOutput s = (.noValue, s) := by
  rw [operate_of_not_faulted hf, perform, takeLastOp, h, List.getLast?_nil]

/-- Settles O48: the two answers of `TAKE_LAST_OUTPUT`, by whether the log has a newest value. -/
theorem takeLastOutputTakesTheNewest : Obligations.TakeLastOutputTakesTheNewest :=
  fun _ hf => ⟨fun _ _ => operate_takeLastOutput_concat hf, operate_takeLastOutput_nil hf⟩

/-- Both answers in one form: a take drops the newest value, and the empty log has none to drop (48 R126). -/
theorem operate_takeLastOutput_state (hf : s.isFaulted = false) :
    (operate .takeLastOutput s).2 = { s with outlog := s.outlog.dropLast } := by
  rcases s.outlog.eq_nil_or_concat' with h | ⟨older, v, h⟩
  · rw [operate_takeLastOutput_nil hf h, h, List.dropLast_nil, ← h]
  · rw [operate_takeLastOutput_concat hf h, h, List.dropLast_concat]

theorem operate_takeLastOutput_ne_noValue (hf : s.isFaulted = false) (h : s.outlog ≠ []) :
    (operate .takeLastOutput s).1 ≠ .noValue := by
  obtain ⟨older, v, hlog⟩ := s.outlog.eq_nil_or_concat'.resolve_left h
  rw [operate_takeLastOutput_concat hf hlog]
  exact nofun

/-- After `k` takes the `k` newest values are gone and nothing else has changed: the invariant of the repetition in 48 R127. -/
theorem iterate_takeLastOutput (hf : s.isFaulted = false) (k : Nat) :
    (fun u => (operate .takeLastOutput u).2)^[k] s = { s with outlog := s.outlog.take (s.outlog.length - k) } := by
  induction k with
  | zero => simp
  | succ k ih =>
    have hf' : ({ s with outlog := s.outlog.take (s.outlog.length - k) } : State).isFaulted = false := hf
    have hdrop : (s.outlog.take (s.outlog.length - k)).dropLast = s.outlog.take (s.outlog.length - (k + 1)) := by
      rw [List.dropLast_eq_take, List.take_take, List.length_take]
      congr 1
      omega
    rw [Function.iterate_succ_apply', ih, operate_takeLastOutput_state hf', hdrop]

/-- Settles O49: as many takes as there are entries leave the drained log, and each of them finds an entry to give. -/
theorem drainEqualsOutputsThenTakes : Obligations.DrainEqualsOutputsThenTakes := by
  intro s hf
  have hdrain : operate .drainOutputs s = (.values s.outlog, { s with outlog := [] }) := operate_of_not_faulted hf _
  refine ⟨hdrain, operate_of_not_faulted hf _, ?_, ?_, fun k hk => ?_⟩
  · rw [iterate_takeLastOutput hf, hdrain, Nat.sub_self, List.take_zero]
  · have hf' : ({ s with outlog := [] } : State).isFaulted = false := hf
    rw [hdrain, operate_takeLastOutput_nil hf' rfl]
  · have hlog : s.outlog.take (s.outlog.length - k) ≠ [] := by
      rw [← List.length_pos_iff, List.length_take]
      omega
    rw [iterate_takeLastOutput hf]
    exact operate_takeLastOutput_ne_noValue hf hlog

/-! ## The input queue -/

theorem operate_addInput {v : Int} (hf : s.isFaulted = false) (hv : InRange v) :
    operate (.addInput v) s = (.done, s.setInq (s.inq ++ [v])) :=
  (operate_of_not_faulted hf _).trans (if_pos hv)

theorem operate_addInput_refused {v : Int} (hf : s.isFaulted = false) (hv : ¬ InRange v) :
    operate (.addInput v) s = (.refused .argument, s) :=
  (operate_of_not_faulted hf _).trans (if_neg hv)

/-- Settles O50: a value in range is appended to `inq` and to nothing else, and any other is refused. -/
theorem addInputAppendsAtTheBack : Obligations.AddInputAppendsAtTheBack :=
  fun _ _ hf => ⟨operate_addInput hf, operate_addInput_refused hf⟩

end Sys2Proof.Machine
end

section
/-! PROOFS. Fault entry (60 R160): where a recorded fault comes from, and what entering it leaves. -/

namespace Sys2Proof.Machine

variable {s t : State}

/-- A step that records a fault was ended by one: no instruction that commits writes a fault into `status` (10 R17, 60 R160). -/
theorem coreStep_of_step_faulted {r : FaultRecord} (h : step s = .next t) (ht : t.status = .faulted r) :
    ∃ c info, coreStep s = .error (.fault c info) ∧ r = s.record c info ∧ t = s.endRun (.fault c info) := by
  obtain ⟨hf, -, hok | ⟨e, herr, rfl⟩⟩ := step_eq_next h
  · obtain ⟨i, -, hi⟩ := coreStep_ok.1 hok
    exact absurd ht ((State.not_isFaulted_iff t).1 ((instrStep_ok_isFaulted hi).trans hf) r)
  · obtain ⟨c, info, rfl, hr⟩ := State.endRun_faulted ht
    exact ⟨c, info, herr, hr, rfl⟩

/-- Settles O38: the fault that ends the step is entered with the record of the state it was raised in, and ends the run there. -/
theorem faultEntryIsPrecise : Obligations.FaultEntryIsPrecise := by
  intro s t r h ht
  obtain ⟨c, info, herr, rfl, rfl⟩ := coreStep_of_step_faulted h ht
  exact ⟨rfl, rfl, rfl, runCommand_succ_error (step_eq_next h).1 herr⟩

end Sys2Proof.Machine
end

section
/-! PROOFS. The round trip of the encoding (30 R50, R59), and memory as no more than what it holds (10 R20). -/

namespace Sys2Proof

/-- Settles O7: the round trip is `decode_encode_append`, and the cells are in range because the word and the raw values are. -/
theorem decodeInvertsEncode : Obligations.DecodeInvertsEncode :=
  fun i rest hi => ⟨decode_encode_append i rest, Laws.EncodedInRange.any i hi, encode_length i⟩

/-- The raw values an instruction is decoded with are the cells it takes from the list (30 R50). -/
theorem Form.instr_raws_getD {f : Form} {cells : List Word} (h : f.opcode.arity ≤ cells.length) :
    (f.instr fun k => cells.getD k 0).raws = cells.take f.opcode.arity := by
  rw [Form.instr_raws]
  refine List.ext_getElem (by simpa using h) fun k _ hk => ?_
  have hlen : k < cells.length := lt_of_lt_of_le hk (List.length_take_le' ..)
  simp [List.getElem?_eq_getElem hlen]

/-- Settles O8: a word that decodes is the word of its form, and the cells taken are the raw values. -/
theorem encodeInvertsDecode : Obligations.EncodeInvertsDecode := by
  intro cells rest i h
  cases cells with
  | nil => cases h
  | cons w cells =>
    obtain ⟨f, hf, hlen, rfl, rfl⟩ := decode_ok.1 h
    rw [encode, Form.instr_form, ← decodeWord_ok hf, Form.instr_raws_getD hlen, List.cons_append, List.take_append_drop]

/-- Settles O6: each word is the word of the form it is said to decode to. -/
theorem sampleWordsDecodeAsListed : Obligations.SampleWordsDecodeAsListed := by
  refine ⟨?_, ?_, ?_, ?_, ?_, ?_, ?_, ?_, ?_, ?_⟩ <;> exact decodeWord_eq_ok.2 rfl

end Sys2Proof

namespace Sys2Proof.Machine

/-- What a canonical memory lists is what it holds: the cells that do not read as an unlisted address does (10 R20). -/
theorem Memory.mem_iff_read {m : Memory} (h : m.wf) (e : Nat × Word) : e ∈ m ↔ m.read e.1 = e.2 ∧ e.2 ≠ unlisted := by
  refine ⟨fun he => ⟨Memory.read_of_mem h he, h.2 e he⟩, fun ⟨hread, hv⟩ => ?_⟩
  have hmem := Memory.mem_of_read (m := m) (a := e.1) (hread ▸ hv)
  rwa [hread] at hmem

/-- Settles O5: memories that read alike list the same entries, and strictly rising lists of the same entries are equal. -/
theorem canonicalMemoriesThatReadAlikeAreEqual : Obligations.CanonicalMemoriesThatReadAlikeAreEqual := by
  intro m m' hm hm' hread
  have hnodup {l : Memory} (hl : l.wf) : l.Nodup := hl.1.imp fun hlt heq => hlt.ne (congrArg Prod.fst heq)
  have hperm : m.Perm m' := (List.perm_ext_iff_of_nodup (hnodup hm) (hnodup hm')).2 fun e => by
    rw [Memory.mem_iff_read hm, Memory.mem_iff_read hm', hread]
  exact hperm.eq_of_pairwise (fun _ _ _ _ hlt hgt => absurd hlt hgt.asymm) hm.1 hm'.1

end Sys2Proof.Machine
end

section
/-! PROOFS. What a host operation can do to a core, said once (48 R120), and the rules that follow: what each status accepts
(48 R121, 60 R162) and which operations leave the control state (47 R113). -/

namespace Sys2Proof.Machine

variable {s : State}

/-! ## The effect of an operation -/

theorem reinitOp_of_legal {img : List Int} (h : legalImage img = true) (s : State) :
    reinitOp img s = (.done, State.construct img) := if_pos h

theorem reinitOp_of_not_legal {img : List Int} (h : ¬ legalImage img = true) (s : State) :
    reinitOp img s = (.refused .argument, s) := if_neg h

theorem takeLastOp_state (s : State) : (takeLastOp s).2 = { s with outlog := s.outlog.dropLast } := by
  rcases s.outlog.eq_nil_or_concat' with h | ⟨older, v, h⟩ <;> rw [takeLastOp, h]
  · rw [List.getLast?_nil, List.dropLast_nil, ← h]
  · rw [List.getLast?_concat, List.dropLast_concat]

/-- The shapes of what an accepted operation changes: nothing, everything by a reset, one cell, the end of the log, or the back of
the queue. -/
theorem perform_state_cases (o : Operation) (s : State) :
    (perform o s).2 = s ∨
    (∃ img, o = .reinit img ∧ legalImage img = true ∧ (perform o s).2 = State.construct img) ∨
    (∃ a v, o = .write a v ∧ validAddress a = true ∧ InRange v ∧ (perform o s).2 = s.store a.toNat v) ∨
    (∃ l, l <+: s.outlog ∧ (perform o s).2 = { s with outlog := l }) ∨
    ∃ v, InRange v ∧ (perform o s).2 = s.setInq (s.inq ++ [v]) := by
  cases o with
  | reinit img =>
    by_cases h : legalImage img = true
    · exact .inr (.inl ⟨img, rfl, h, congrArg Prod.snd (reinitOp_of_legal h s)⟩)
    · exact .inl (congrArg Prod.snd (reinitOp_of_not_legal h s))
  | read a => exact .inl ((apply_ite Prod.snd ..).trans (ite_self s))
  | write a v =>
    by_cases h : validAddress a ∧ InRange v
    · exact .inr (.inr (.inl ⟨a, v, rfl, h.1, h.2, congrArg Prod.snd (if_pos h)⟩))
    · exact .inl (congrArg Prod.snd (if_neg h))
  | takeLastOutput => exact .inr (.inr (.inr (.inl ⟨_, s.outlog.dropLast_prefix, takeLastOp_state s⟩)))
  | drainOutputs => exact .inr (.inr (.inr (.inl ⟨[], List.nil_prefix, rfl⟩)))
  | addInput v =>
    by_cases h : InRange v
    · exact .inr (.inr (.inr (.inr ⟨v, h, congrArg Prod.snd (if_pos h)⟩)))
    · exact .inl (congrArg Prod.snd (if_neg h))
  | outputs | clone | status => exact .inl rfl

/-! ## A faulted core -/

/-- On a faulted core an operation that is not allowed there is refused with no effect (60 R162). -/
theorem operate_of_faulted (hf : s.isFaulted = true) {o : Operation} (h : o.allowedFaulted = false) :
    operate o s = (.refused .faulted, s) := by
  simp [operate, Operation.accepted, hf, h]

theorem Operation.allowedFaulted_eq_false {o : Operation} (hreinit : ∀ img, o ≠ .reinit img) (hstatus : o ≠ .status) :
    o.allowedFaulted = false := by
  cases o with
  | reinit img => exact absurd rfl (hreinit img)
  | status => exact absurd rfl hstatus
  | read | write | outputs | takeLastOutput | drainOutputs | addInput | clone => rfl

/-- `STATUS` gives the status, in every status (48 R132, 60 R162). -/
theorem operate_status (s : State) : operate .status s = (.status s.status, s) := by
  simp [operate, Operation.accepted, Operation.allowedFaulted, perform]

/-- No operation but `REINIT` changes a faulted core (60 R162). -/
theorem operate_state_of_faulted (hf : s.isFaulted = true) {o : Operation} (hreinit : ∀ img, o ≠ .reinit img) :
    (operate o s).2 = s := by
  by_cases hstatus : o = .status
  · rw [hstatus, operate_status]
  · rw [operate_of_faulted hf (Operation.allowedFaulted_eq_false hreinit hstatus)]

theorem runCommand_of_faulted (hf : s.isFaulted = true) (fuel : Nat) :
    runCommand fuel s = some (.refused .faulted, s) := if_pos hf

theorem command_op_state {fuel : Nat} {o : Operation} {r : Response} {t : State} (h : command fuel (.op o) s = some (r, t)) :
    t = (operate o s).2 :=
  (congrArg Prod.snd (Option.some.inj h)).symm

/-- Settles O39: every command but the two that a faulted core allows is refused, and of those only `REINIT` changes the core. -/
theorem faultedCoreRefusesAllButReinitAndStatus : Obligations.FaultedCoreRefusesAllButReinitAndStatus := by
  refine fun s fuel hf => ⟨runCommand_of_faulted hf fuel, fun o hreinit hstatus => ?_, ?_, fun img himg => ?_, ?_⟩
  · exact congrArg some (operate_of_faulted hf (Operation.allowedFaulted_eq_false hreinit hstatus))
  · exact congrArg some (operate_status s)
  · exact congrArg some ((operate_reinit img s).trans (reinitOp_of_legal himg s))
  · intro c r t h hne
    cases c with
    | run => cases (runCommand_of_faulted hf fuel).symm.trans h; exact absurd rfl hne
    | op o =>
      by_contra hreinit
      exact hne ((command_op_state h).trans (operate_state_of_faulted hf fun img ho => hreinit ⟨img, ho ▸ rfl⟩))

/-- Settles O47: `REINIT` is answered in every status, by whether its image is legal. -/
theorem reinitIsAcceptedInEveryStatus : Obligations.ReinitIsAcceptedInEveryStatus := by
  refine fun img s => ⟨fun hlen hv => ?_, fun hbad => ?_⟩ <;> rw [operate_reinit]
  · exact reinitOp_of_legal ((legalImage_iff img).2 ⟨hlen, hv⟩) s
  · refine reinitOp_of_not_legal (fun hlegal => ?_) s
    obtain ⟨hlen, hv⟩ := (legalImage_iff img).1 hlegal
    rcases hbad with hlong | ⟨v, hmem, hout⟩
    · exact absurd hlen (Nat.not_le.2 hlong)
    · exact hout (hv v hmem)

/-! ## The control state -/

/-- Settles O51: an operation is refused or has one of the shapes of `perform_state_cases`, and only the reset touches `pc`, `rb`
or `status`. -/
theorem operationsLeaveControlState : Obligations.OperationsLeaveControlState := by
  intro o s hreinit
  rcases operate_cases o s with h | h <;> rw [h]
  · exact ⟨rfl, rfl, rfl⟩
  · rcases perform_state_cases o s with h | ⟨img, ho, -, -⟩ | ⟨a, v, -, -, -, h⟩ | ⟨l, -, h⟩ | ⟨v, -, h⟩
    · rw [h]; exact ⟨rfl, rfl, rfl⟩
    · exact absurd ho (hreinit img)
    all_goals rw [h]; exact ⟨rfl, rfl, rfl⟩

end Sys2Proof.Machine
end

section
/-! PROOFS. Reset (10 R24), and the invariant of 10 R25: reset establishes it, and every step and every command keeps it. -/

namespace Sys2Proof.Machine

variable {s t : State}

/-! ## Reset -/

theorem State.construct_holdsAfterReset (img : List Word) : (State.construct img).holdsAfterReset img := by
  have hread (a : Nat) : (State.construct img).mem.read a = img.getD a 0 := by
    rw [← Memory.ofImage_read img 0 a, Nat.zero_add]; rfl
  refine ⟨rfl, rfl, rfl, rfl, rfl, fun a ha => ?_, fun a ha => ?_⟩ <;> rw [hread]
  · exact List.getD_eq_getElem _ _ ha
  · exact List.getD_eq_default _ _ ha

/-- Settles O1: `REINIT` and `CONSTRUCT` of a legal image both give `State.construct`, and neither is done for any other. -/
theorem resetLoadsImageAndClearsTheRest : Obligations.ResetLoadsImageAndClearsTheRest := by
  refine ⟨fun img s t h => ?_, fun img cores cores' h => ?_⟩ <;> by_cases himg : legalImage img = true
  · rw [operate_reinit, reinitOp_of_legal himg] at h
    cases h
    exact State.construct_holdsAfterReset img
  · rw [operate_reinit, reinitOp_of_not_legal himg] at h
    cases h
  · rw [System.construct, if_pos himg] at h
    cases h
    exact ⟨_, rfl, State.construct_holdsAfterReset img⟩
  · rw [System.construct, if_neg himg] at h
    cases h

/-! ## The invariant under each update of the state -/

theorem State.construct_inv {img : List Int} (h : legalImage img = true) : (State.construct img).Inv := by
  obtain ⟨hlen, hv⟩ := (legalImage_iff img).1 h
  refine ⟨Nat.zero_le _, (by decide : InRange 0), State.construct_mem_wf img, fun e he => ?_, nofun, nofun⟩
  obtain ⟨haddr, hmem⟩ := Memory.ofImage_mem he
  exact ⟨by omega, hv _ hmem⟩

/-- Settles O2: the reset state is what `REINIT` of the empty image constructs, and that image is legal. -/
theorem resetStateSatisfiesInvariant : Obligations.ResetStateSatisfiesInvariant :=
  ⟨fun s => (operate_reinit [] s).trans (reinitOp_of_legal rfl s), State.construct_inv (img := []) rfl⟩

theorem State.Inv.store (h : s.Inv) {a : Nat} {v : Word} (ha : a ≤ Config.maxAddr) (hv : InRange v) : (s.store a v).Inv :=
  ⟨h.pc, h.rb, Memory.write_wf h.memWf a v, Memory.write_inBounds h.mem ha hv, h.inq, h.outlog⟩

theorem State.Inv.setPc (h : s.Inv) {a : Nat} (ha : a ≤ Config.maxAddr) : (s.setPc a).Inv :=
  ⟨ha, h.rb, h.memWf, h.mem, h.inq, h.outlog⟩

theorem State.Inv.setRb (h : s.Inv) {v : Word} (hv : InRange v) : (s.setRb v).Inv :=
  ⟨h.pc, hv, h.memWf, h.mem, h.inq, h.outlog⟩

theorem State.Inv.setInq (h : s.Inv) {q : List Word} (hq : ∀ v ∈ q, InRange v) : (s.setInq q).Inv :=
  ⟨h.pc, h.rb, h.memWf, h.mem, hq, h.outlog⟩

theorem State.Inv.setOutlog (h : s.Inv) {l : List Word} (hl : ∀ v ∈ l, InRange v) : ({ s with outlog := l } : State).Inv :=
  ⟨h.pc, h.rb, h.memWf, h.mem, h.inq, hl⟩

theorem forall_mem_concat {l : List Word} {v : Word} (hl : ∀ u ∈ l, InRange u) (hv : InRange v) : ∀ u ∈ l ++ [v], InRange u :=
  List.forall_mem_append.2 ⟨hl, List.forall_mem_singleton.2 hv⟩

/-! ## Steps -/

theorem truthCell_inRange (b : Bool) : InRange (truthCell b) := by cases b <;> decide

/-- A jump target in range is an address: `MAXADDR = MAXV` (00 R5, 43 R92). -/
theorem toNat_le_maxAddr {v : Word} (h : InRange v) : v.toNat ≤ Config.maxAddr := Int.toNat_le.2 h.2

/-- An instruction that commits keeps the invariant, where its raw values are cell values: those of a jump's target and of an
output are what `pc` and the log then hold. -/
theorem instrStep_keeps_inv {i : Instr} (hs : s.Inv) (hi : ∀ v ∈ i.raws, InRange v) (h : instrStep i s = .ok t) : t.Inv := by
  cases i with
  | add a b d =>
    obtain ⟨v0, v1, wa, -, -, hw, hr, hp, rfl⟩ := addStep_ok.1 h
    exact (hs.store (writeAddr_le hw) hr).setPc hp
  | mul a b d =>
    obtain ⟨v0, v1, wa, -, -, hw, hr, hp, rfl⟩ := mulStep_ok.1 h
    exact (hs.store (writeAddr_le hw) hr).setPc hp
  | lt a b d =>
    obtain ⟨v0, v1, wa, -, -, hw, hp, rfl⟩ := ltStep_ok.1 h
    exact (hs.store (writeAddr_le hw) (truthCell_inRange _)).setPc hp
  | eq a b d =>
    obtain ⟨v0, v1, wa, -, -, hw, hp, rfl⟩ := eqStep_ok.1 h
    exact (hs.store (writeAddr_le hw) (truthCell_inRange _)).setPc hp
  | inp d =>
    obtain ⟨wa, v, rest, hw, hq, hp, rfl⟩ := inpStep_ok.1 h
    obtain ⟨hv, hrest⟩ := List.forall_mem_cons.1 (hq ▸ hs.inq)
    exact ((hs.setInq hrest).store (writeAddr_le hw) hv).setPc hp
  | out a =>
    obtain ⟨v0, h0, hp, rfl⟩ := outStep_ok.1 h
    have hv : InRange v0 := readParam_inRange hs.mem (hi _ (by simp [Instr.raws])) h0
    exact (hs.setOutlog (forall_mem_concat hs.outlog hv)).setPc hp
  | arb a =>
    obtain ⟨v0, -, hr, hp, rfl⟩ := arbStep_ok.1 h
    exact (hs.setRb hr).setPc hp
  | jnz c g =>
    obtain ⟨v0, v1, -, h1, ⟨-, -, rfl⟩ | ⟨-, hp, rfl⟩⟩ := jnzStep_ok.1 h
    · exact hs.setPc (toNat_le_maxAddr (readParam_inRange hs.mem (hi _ (by simp [Instr.raws])) h1))
    · exact hs.setPc hp
  | jz c g =>
    obtain ⟨v0, v1, -, h1, ⟨-, -, rfl⟩ | ⟨-, hp, rfl⟩⟩ := jzStep_ok.1 h
    · exact hs.setPc (toNat_le_maxAddr (readParam_inRange hs.mem (hi _ (by simp [Instr.raws])) h1))
    · exact hs.setPc hp
  | hlt => cases h

/-- What is fetched from a legal state is well formed, so `Step()` keeps the invariant (47 R106). -/
theorem coreStep_keeps_inv (hs : s.Inv) (h : coreStep s = .ok t) : t.Inv := by
  obtain ⟨i, hfetch, hi⟩ := coreStep_ok.1 h
  exact instrStep_keeps_inv hs (fetch_raws_inRange hs.mem hs.pc hfetch) hi

/-- Settles O3: a step commits an instruction, or ends the run with `status` alone changed. -/
theorem stepKeepsInvariant : Obligations.StepKeepsInvariant := by
  intro s t hs h
  obtain ⟨-, -, hok | ⟨e, -, rfl⟩⟩ := step_eq_next h
  · exact coreStep_keeps_inv hs hok
  · exact hs.endRun e

/-! ## Commands -/

/-- A whole run keeps the invariant, by induction over its instructions. -/
theorem run_keeps_inv {n : Nat} {r : RunResult} (hs : s.Inv) (h : run n s = some (r, t)) : t.Inv := by
  obtain ⟨u, e, hu, -, -, rfl⟩ := run_induction (P := State.Inv) (fun _ _ => coreStep_keeps_inv) hs h
  exact hu.endRun e

/-- What `RUN` answers: the refusal of a faulted core, or the result of the run (48 R122). -/
theorem runCommand_eq_some {fuel : Nat} {r : Response} : runCommand fuel s = some (r, t) ↔
    (s.isFaulted = true ∧ r = .refused .faulted ∧ t = s) ∨
    (s.isFaulted = false ∧ ∃ res, run fuel s = some (res, t) ∧ r = .result res) := by
  cases hf : s.isFaulted with
  | true => simp [runCommand, hf, eq_comm]
  | false => simp [runCommand, hf, eq_comm]

theorem operate_keeps_inv (hs : s.Inv) (o : Operation) : (operate o s).2.Inv := by
  rcases operate_cases o s with h | h <;> rw [h]
  · exact hs
  · rcases perform_state_cases o s with h | ⟨img, -, himg, h⟩ | ⟨a, v, -, ha, hv, h⟩ | ⟨l, hl, h⟩ | ⟨v, hv, h⟩ <;> rw [h]
    · exact hs
    · exact State.construct_inv himg
    · exact hs.store (Int.toNat_le.2 ((validAddress_iff a).1 ha).2) hv
    · exact hs.setOutlog fun v hv => hs.outlog v (hl.subset hv)
    · exact hs.setInq (forall_mem_concat hs.inq hv)

/-- Settles O4: `RUN` is refused or keeps the invariant by `run_keeps_inv`, and each operation by the shape of its effect. -/
theorem commandsKeepInvariant : Obligations.CommandsKeepInvariant := by
  intro fuel c s r t hs h
  cases c with
  | run =>
    obtain ⟨-, -, rfl⟩ | ⟨-, res, hrun, -⟩ := runCommand_eq_some.1 h
    · exact hs
    · exact run_keeps_inv hs hrun
  | op o =>
    obtain rfl := command_op_state h
    exact operate_keeps_inv hs o

end Sys2Proof.Machine
end

section
/-! PROOFS. What an instruction leaves unchanged, said once for all ten (41 to 46), and the frames that follow: memory but for the
write target, `rb` but for `ARB`, the log but for `OUT`, the queue but for `IN`. -/

namespace Sys2Proof

/-- The write-target parameter of an instruction (30 R56). -/
def Instr.target : Instr → Option Target
  | .add _ _ d | .mul _ _ d | .lt _ _ d | .eq _ _ d | .inp d => some d
  | .out _ | .jnz _ _ | .jz _ _ | .arb _ | .hlt => none

theorem Instr.target_isSome (i : Instr) : i.target.isSome = i.form.opcode.writePos.isSome := by cases i <;> rfl

end Sys2Proof

namespace Sys2Proof.Machine

variable {i : Instr} {s t : State}

/-! ## Committing instructions -/

/-- A committing instruction stores at its resolved write target, or stores nothing (47 R106). -/
theorem instrStep_ok_mem (h : instrStep i s = .ok t) :
    t.mem = s.mem ∨ ∃ d wa v, i.target = some d ∧ writeAddr d s = .ok wa ∧ t.mem = s.mem.write wa v := by
  cases i with
  | add a b d => obtain ⟨_, _, wa, -, -, hw, -, -, rfl⟩ := addStep_ok.1 h; exact .inr ⟨d, wa, _, rfl, hw, rfl⟩
  | mul a b d => obtain ⟨_, _, wa, -, -, hw, -, -, rfl⟩ := mulStep_ok.1 h; exact .inr ⟨d, wa, _, rfl, hw, rfl⟩
  | lt a b d => obtain ⟨_, _, wa, -, -, hw, -, rfl⟩ := ltStep_ok.1 h; exact .inr ⟨d, wa, _, rfl, hw, rfl⟩
  | eq a b d => obtain ⟨_, _, wa, -, -, hw, -, rfl⟩ := eqStep_ok.1 h; exact .inr ⟨d, wa, _, rfl, hw, rfl⟩
  | inp d => obtain ⟨wa, _, _, hw, -, -, rfl⟩ := inpStep_ok.1 h; exact .inr ⟨d, wa, _, rfl, hw, rfl⟩
  | out a => obtain ⟨_, -, -, rfl⟩ := outStep_ok.1 h; exact .inl rfl
  | arb a => obtain ⟨_, -, -, -, rfl⟩ := arbStep_ok.1 h; exact .inl rfl
  | jnz c g => obtain ⟨_, _, -, -, ⟨-, -, rfl⟩ | ⟨-, -, rfl⟩⟩ := jnzStep_ok.1 h <;> exact .inl rfl
  | jz c g => obtain ⟨_, _, -, -, ⟨-, -, rfl⟩ | ⟨-, -, rfl⟩⟩ := jzStep_ok.1 h <;> exact .inl rfl
  | hlt => cases h

/-- Of `rb`, `inq` and `outlog`, a committing instruction changes at most the one that is its own (42 R87, 45 R101). -/
theorem instrStep_ok_registers (h : instrStep i s = .ok t) :
    (t.rb = s.rb ∨ ∃ a, i = .arb a) ∧ (t.inq = s.inq ∨ (∃ d, i = .inp d) ∧ ∃ v, s.inq = v :: t.inq) ∧
      (t.outlog = s.outlog ∨ ∃ a, i = .out a) := by
  cases i with
  | add a b d => obtain ⟨_, _, _, -, -, -, -, -, rfl⟩ := addStep_ok.1 h; exact ⟨.inl rfl, .inl rfl, .inl rfl⟩
  | mul a b d => obtain ⟨_, _, _, -, -, -, -, -, rfl⟩ := mulStep_ok.1 h; exact ⟨.inl rfl, .inl rfl, .inl rfl⟩
  | lt a b d => obtain ⟨_, _, _, -, -, -, -, rfl⟩ := ltStep_ok.1 h; exact ⟨.inl rfl, .inl rfl, .inl rfl⟩
  | eq a b d => obtain ⟨_, _, _, -, -, -, -, rfl⟩ := eqStep_ok.1 h; exact ⟨.inl rfl, .inl rfl, .inl rfl⟩
  | inp d => obtain ⟨_, v, _, -, hq, -, rfl⟩ := inpStep_ok.1 h; exact ⟨.inl rfl, .inr ⟨⟨d, rfl⟩, v, hq⟩, .inl rfl⟩
  | out a => obtain ⟨_, -, -, rfl⟩ := outStep_ok.1 h; exact ⟨.inl rfl, .inl rfl, .inr ⟨a, rfl⟩⟩
  | arb a => obtain ⟨_, -, -, -, rfl⟩ := arbStep_ok.1 h; exact ⟨.inr ⟨a, rfl⟩, .inl rfl, .inl rfl⟩
  | jnz c g =>
    obtain ⟨_, _, -, -, ⟨-, -, rfl⟩ | ⟨-, -, rfl⟩⟩ := jnzStep_ok.1 h <;> exact ⟨.inl rfl, .inl rfl, .inl rfl⟩
  | jz c g =>
    obtain ⟨_, _, -, -, ⟨-, -, rfl⟩ | ⟨-, -, rfl⟩⟩ := jzStep_ok.1 h <;> exact ⟨.inl rfl, .inl rfl, .inl rfl⟩
  | hlt => cases h

/-! ## Every next state an instruction answers -/

/-- Every address but the resolved write target reads as before, in whatever way the instruction ends (47 R106). -/
theorem exec_mem_frame (h : exec i s = .next t) {x : Nat}
    (hx : ∀ d wa, i.target = some d → writeAddr d s = .ok wa → x ≠ wa) : t.mem.read x = s.mem.read x := by
  obtain hok | ⟨e, -, rfl⟩ := exec_eq_next.1 h
  · obtain hm | ⟨d, wa, v, hd, hw, hm⟩ := instrStep_ok_mem hok <;> rw [hm]
    exact Memory.read_write_other _ v (hx d wa hd hw)
  · rw [s.endRun_mem]

/-- An end of the run leaves `rb` and both queues, so what holds of them for committing instructions holds for all (47 R106). -/
theorem exec_registers (h : exec i s = .next t) :
    (t.rb = s.rb ∨ ∃ a, i = .arb a) ∧ (t.inq = s.inq ∨ (∃ d, i = .inp d) ∧ ∃ v, s.inq = v :: t.inq) ∧
      (t.outlog = s.outlog ∨ ∃ a, i = .out a) := by
  obtain hok | ⟨e, -, rfl⟩ := exec_eq_next.1 h
  · exact instrStep_ok_registers hok
  · exact ⟨.inl (s.endRun_rb e), .inl (s.endRun_inq e), .inl (s.endRun_outlog e)⟩

/-- What becomes of `status`: it stays, or it alone changes, by a suspending `IN`, by `HLT`, or by a fault (10 R17, 47 R106). -/
theorem exec_status (h : exec i s = .next t) :
    t.status = s.status ∨ (t = { s with status := .awaitingInput } ∧ ∃ d, i = .inp d) ∨
      (t = { s with status := .halted } ∧ i = .hlt) ∨ ∃ r, t = { s with status := .faulted r } := by
  obtain hok | ⟨e, herr, rfl⟩ := exec_eq_next.1 h
  · exact .inl (instrStep_ok_status hok)
  · cases e with
    | fault c info => exact .inr (.inr (.inr ⟨_, rfl⟩))
    | awaitingInput =>
      obtain ⟨hinp, -⟩ | rfl := instrStep_error_without_fault herr rfl
      · exact .inr (.inl ⟨rfl, hinp⟩)
      · cases herr
    | halted =>
      obtain ⟨⟨d, rfl⟩, -⟩ | rfl := instrStep_error_without_fault herr rfl
      · obtain ⟨_, _, hhalted, -⟩ | ⟨hhalted, -⟩ | ⟨hhalted, -⟩ := inpStep_error herr <;> cases hhalted
      · exact .inr (.inr (.inl ⟨rfl, rfl⟩))

/-! ## The frames -/

theorem exec_rb (h : exec i s = .next t) (hi : ∀ a, i ≠ .arb a) : t.rb = s.rb :=
  (exec_registers h).1.resolve_right fun ⟨a, ha⟩ => hi a ha

theorem exec_inq (h : exec i s = .next t) (hi : ∀ d, i ≠ .inp d) : t.inq = s.inq :=
  (exec_registers h).2.1.resolve_right fun ⟨⟨d, hd⟩, _⟩ => hi d hd

theorem exec_outlog (h : exec i s = .next t) (hi : ∀ a, i ≠ .out a) : t.outlog = s.outlog :=
  (exec_registers h).2.2.resolve_right fun ⟨a, ha⟩ => hi a ha

/-- The memory frame of an instruction with a write target, by whether the target resolves (40 R72). -/
theorem exec_mem_of_target {d : Target} (h : exec i s = .next t) (hd : i.target = some d) :
    (∀ wa, writeAddr d s = .ok wa → ∀ x, x ≠ wa → t.mem.read x = s.mem.read x) ∧
      (∀ e, writeAddr d s = .error e → ∀ x, t.mem.read x = s.mem.read x) := by
  refine ⟨fun wa hw x hx => exec_mem_frame h fun d' wa' hd' hw' => ?_, fun e he x => exec_mem_frame h fun d' wa' hd' hw' => ?_⟩ <;>
    cases hd.symm.trans hd'
  · cases hw.symm.trans hw'
    exact hx
  · cases he.symm.trans hw'

/-- The frame of an instruction that has a write target, takes no input and ends no run without a fault. -/
theorem exec_frame_of_target {d : Target} (h : exec i s = .next t) (hd : i.target = some d) (hinp : ∀ d, i ≠ .inp d) :
    t.rb = s.rb ∧ t.inq = s.inq ∧ t.outlog = s.outlog ∧
      (t.status = s.status ∨ ∃ r, t = { s with status := .faulted r }) ∧
      (∀ wa, writeAddr d s = .ok wa → ∀ x, x ≠ wa → t.mem.read x = s.mem.read x) ∧
      (∀ e, writeAddr d s = .error e → ∀ x, t.mem.read x = s.mem.read x) := by
  have hstatus : t.status = s.status ∨ ∃ r, t = { s with status := .faulted r } := by
    obtain hst | ⟨-, d', hd'⟩ | ⟨-, rfl⟩ | hfault := exec_status h
    · exact .inl hst
    · exact absurd hd' (hinp d')
    · cases hd
    · exact .inr hfault
  have hrb : ∀ a, i ≠ .arb a := by rintro a rfl; cases hd
  have hout : ∀ a, i ≠ .out a := by rintro a rfl; cases hd
  exact ⟨exec_rb h hrb, exec_inq h hinp, exec_outlog h hout, hstatus, exec_mem_of_target h hd⟩

/-- Settles O29: all four instructions have a write target and are none of those with a register of their own. -/
theorem threeParameterInstructionFrame : Obligations.ThreeParameterInstructionFrame := by
  rintro op (rfl | rfl | rfl | rfl) a b d s t h <;> exact exec_frame_of_target h rfl nofun

/-- Settles O30: of what an instruction can change, `IN` has its write target, the queue, and the suspension. -/
theorem inputInstructionFrame : Obligations.InputInstructionFrame := by
  intro d s t h
  obtain ⟨-, hinq, -⟩ := exec_registers h
  refine ⟨exec_rb h nofun, exec_outlog h nofun, hinq.imp_right And.right, ?_, exec_mem_of_target h rfl⟩
  obtain hst | ⟨hsusp, -⟩ | ⟨-, hhlt⟩ | hfault := exec_status h
  · exact .inl hst
  · exact .inr (.inl hsusp)
  · cases hhlt
  · exact .inr (.inr hfault)

/-- Settles O31: none of the five has a write target or takes input, and `HLT` alone of them ends a run without a fault. -/
theorem nonStoringInstructionFrame : Obligations.NonStoringInstructionFrame := by
  intro i s t hi h
  have hnone : i.target = none := by
    obtain ⟨a, rfl⟩ | ⟨c, g, rfl⟩ | ⟨c, g, rfl⟩ | ⟨a, rfl⟩ | rfl := hi <;> rfl
  have hinp : ∀ d, i ≠ .inp d := by rintro d rfl; cases hnone
  refine ⟨fun x => exec_mem_frame h fun d wa hd => ?_, exec_inq h hinp, exec_rb h, exec_outlog h, ?_⟩
  · cases hnone.symm.trans hd
  · obtain hst | ⟨-, d, hd⟩ | hhlt | hfault := exec_status h
    · exact .inl hst
    · exact absurd hd (hinp d)
    · exact .inr (.inl hhlt.symm)
    · exact .inr (.inr hfault)

/-! ## What belongs to one instruction -/

/-- Settles O32: the frames of the two queues, and the two ends of a run without a fault. -/
theorem queuesAndRunEndsBelongToTheirInstructions : Obligations.QueuesAndRunEndsBelongToTheirInstructions := by
  intro i s t h
  obtain ⟨-, hinq, hout⟩ := exec_registers h
  refine ⟨fun hne => (hinq.resolve_left hne).1, fun hne => hout.resolve_left hne, fun ht hs => ?_, fun ht hs => ?_⟩ <;>
    obtain hst | ⟨rfl, hinp⟩ | ⟨rfl, hhlt⟩ | ⟨r, rfl⟩ := exec_status h
  · exact absurd (hst ▸ ht) hs
  · exact hinp
  · cases ht
  · cases ht
  · exact absurd (hst ▸ ht) hs
  · cases ht
  · exact hhlt
  · cases ht

/-- Settles O33: among instructions by `exec_registers`, and among operations because only `REINIT` touches the control state. -/
theorem relativeBaseIsWrittenOnlyByArbAndReinit : Obligations.RelativeBaseIsWrittenOnlyByArbAndReinit := by
  refine ⟨fun i s t h hne => (exec_registers h).1.resolve_left hne, fun o s t r h hne => ?_⟩
  obtain rfl : (operate o s).2 = t := congrArg Prod.snd h
  by_cases hreinit : ∃ img, o = .reinit img
  · obtain ⟨img, rfl⟩ := hreinit
    refine ⟨⟨img, rfl⟩, ?_⟩
    rw [operate_reinit] at hne ⊢
    by_cases himg : legalImage img = true
    · rw [reinitOp_of_legal himg]; rfl
    · rw [reinitOp_of_not_legal himg] at hne; exact absurd rfl hne
  · obtain ⟨-, hrb, -⟩ := operationsLeaveControlState o s fun img ho => hreinit ⟨img, ho⟩
    exact absurd hrb hne

/-- Settles O35: the fault an instruction records is one that `instrStep_error` lists for it. -/
theorem faultCausesBelongToTheirInstructions : Obligations.FaultCausesBelongToTheirInstructions := by
  intro i s t r hs h ht
  obtain hok | ⟨e, herr, rfl⟩ := exec_eq_next.1 h
  · exact absurd ht ((State.not_isFaulted_iff t).1 ((instrStep_ok_isFaulted hok).trans hs) r)
  obtain ⟨c, info, rfl, rfl⟩ := State.endRun_faulted ht
  rcases instrStep_error herr with ⟨sub, _, he, hsub, hhlt⟩ | ⟨_, he, hi⟩ | ⟨_, he, hi⟩ | ⟨he, -, hhlt⟩ | ⟨he, -⟩ | ⟨he, -⟩ <;>
    cases he
  · refine ⟨nofun, ?_, nofun, hhlt⟩
    rintro ⟨⟩
    simp at hsub
  · refine ⟨fun _ => hi, nofun, nofun, ?_⟩
    rintro rfl
    simp at hi
  · refine ⟨nofun, fun _ => hi, nofun, ?_⟩
    rintro rfl
    simp at hi
  · exact ⟨nofun, nofun, nofun, hhlt⟩

end Sys2Proof.Machine
end

section
/-! PROOFS. Relative rewriting (40 R76), and fetching (47 R106 phases 1 to 3): the instruction a step executes, the parameter cells
beyond `MAXADDR`, and the next `pc` beyond it (R107). -/

namespace Sys2Proof

/-- Only the first `arity` parameter cells are read (30 R50). -/
theorem Form.instr_congr {f : Form} {raw raw' : Nat → Word} (h : ∀ k < f.opcode.arity, raw k = raw' k) :
    f.instr raw = f.instr raw' := by
  have hraws : (f.instr raw').form.instr raw = f.instr raw' := (f.instr raw').form_instr raw fun k hk => by
    simp only [Form.instr_raws, List.getElem_map, List.getElem_range]
    exact h k (by simpa using hk)
  rwa [Form.instr_form] at hraws

end Sys2Proof

namespace Sys2Proof.Machine

variable {s t : State}

/-! ## Relative rewriting -/

/-- Position `k` and Relative `k - rb` name the same value (40 R76). -/
theorem readParam_toRelative (p : Source) (s : State) : readParam (p.toRelative s.rb) s = readParam p s := by
  obtain ⟨m, raw⟩ := p
  cases m with
  | position => simp [Source.toRelative, readParam, effAddr, rawAddress]
  | immediate | relative => rfl

/-- Position `k` and Relative `k - rb` name the same address (40 R76). -/
theorem writeAddr_toRelative (d : Target) (s : State) : writeAddr (d.toRelative s.rb) s = writeAddr d s := by
  obtain ⟨m, raw⟩ := d
  cases m with
  | position => simp [Target.toRelative, writeAddr, effAddr, rawAddress]
  | relative => rfl

/-- Settles O18: an instruction uses its parameters only through `readParam` and `writeAddr`. -/
theorem relativeRewritingIsEquivalent : Obligations.RelativeRewritingIsEquivalent := by
  intro i s
  rw [exec_eq_conclude, exec_eq_conclude]
  congr 1
  cases i <;> simp only [Instr.toRelative, instrStep, addStep, mulStep, ltStep, eqStep, inpStep, outStep, arbStep, jnzStep,
    jzStep, readParam_toRelative, writeAddr_toRelative]

/-! ## Fetch and step -/

/-- Settles O11: the cells the list decoder takes are those that `fetch` reads. -/
theorem stepRunsDecodedInstruction : Obligations.StepRunsDecodedInstruction := by
  intro s n i rest hf hdec hlen
  cases n with
  | zero => cases hdec
  | succ n =>
    obtain ⟨f, hw, harity, rfl, -⟩ := decode_ok.1 hdec
    rw [Memory.cells_length] at harity
    rw [Instr.length, Form.instr_form] at hlen
    have hp : s.pc ≤ Config.maxAddr := by omega
    refine step_of_fetch hf hp ((fetch_ok hp).2 ⟨f, hw, by omega, Form.instr_congr fun k hk => ?_⟩)
    exact Memory.cells_getD s.mem (lt_of_lt_of_le hk harity)

/-- Settles O12: the first parameter cell that does not exist is the one at `MAXADDR + 1`. -/
theorem parameterCellsBeyondTheTopFault : Obligations.ParameterCellsBeyondTheTopFault := by
  intro s f hf hp hw hbeyond
  exact step_of_fault hf hp ((fetch_error hp).2 (.inr ⟨f, hw, hbeyond, rfl⟩))

/-- An instruction's pseudocode commits or ends the run, and both are a next state (47 R106). -/
theorem conclude_exists (s : State) (r : Except Stop State) : ∃ t, s.conclude r = .next t := by
  cases r <;> exact ⟨_, rfl⟩

/-- Settles O13: `exec` and an unfaulted `step` are pseudocode, concluded. -/
theorem stepAnswersNextUnlessFaulted : Obligations.StepAnswersNextUnlessFaulted := by
  refine ⟨fun i s => ?_, fun s hf hp => ?_, fun s hf => if_pos hf⟩
  · rw [exec_eq_conclude]; exact conclude_exists s _
  · rw [step_eq_conclude hf hp]; exact conclude_exists s _

/-- Settles O14: the sum is stored where `pc` then points, and the next step decodes what it reads there. -/
theorem storedWordIsFetchedNext : Obligations.StoredWordIsFetchedNext := by
  intro a b d s v0 v1 hwf hf h0 h1 hw hr
  have hp : s.pc + 4 ≤ Config.maxAddr := writeAddr_le hw
  obtain ⟨t, hexec, hread, -, -, ht⟩ := (exec_of_storeResult hwf (addStep_of_resolved h0 h1 hw)).1 hr hp
  have hpc : t.pc = s.pc + 4 := by rw [ht]
  have htf : t.isFaulted = false := by rw [ht]; exact hf
  rw [← hpc] at hp hread
  refine ⟨t, hexec, hpc, fun c hc => step_of_decodeWord_error htf hp hread hc, fun f hfw harity => ?_⟩
  rw [← hread] at hfw
  rw [← hpc] at harity
  exact ⟨_, Form.instr_form _ f, step_of_fetch htf hp ((fetch_ok hp).2 ⟨f, hfw, harity, rfl⟩)⟩

/-- Only the test of the next `pc` raises `PcOutOfRange` once an instruction is decoded (47 R107). -/
theorem instrStep_pcOutOfRange {i : Instr} {info : Int}
    (h : instrStep i s = .error (.fault (.addressFault .pcOutOfRange) info)) :
    info = (s.pc + i.length : Nat) ∧ Config.maxAddr < s.pc + i.length := by
  rcases instrStep_error h with ⟨sub, _, he, hsub, -⟩ | ⟨_, he, -⟩ | ⟨_, he, -⟩ | ⟨he, hlt, -⟩ | ⟨he, -⟩ | ⟨he, -⟩ <;> cases he
  · simp at hsub
  · exact ⟨rfl, hlt⟩

/-- Settles O36: fetching never raises it, and the cells of a fetched instruction end at `MAXADDR` at the latest. -/
theorem pcOutOfRangeOnlyInTheLastCell : Obligations.PcOutOfRangeOnlyInTheLastCell := by
  intro s t r h ht hcause
  obtain ⟨-, hp, -⟩ := step_eq_next h
  obtain ⟨c, info, herr, rfl, -⟩ := coreStep_of_step_faulted h ht
  obtain rfl : c = .addressFault .pcOutOfRange := hcause
  obtain hfetch | ⟨i, hfetch, hi⟩ := coreStep_error.1 herr
  · obtain ⟨_, -, he⟩ | ⟨_, -, -, he⟩ := (fetch_error hp).1 hfetch <;> cases he
  · obtain ⟨rfl, hlt⟩ := instrStep_pcOutOfRange hi
    obtain ⟨f, hw, harity, rfl⟩ := (fetch_ok hp).1 hfetch
    rw [Instr.length, Form.instr_form] at hlt
    refine ⟨?_, f, hw, by omega⟩
    simp only [State.record, Instr.length, Form.instr_form]
    omega

end Sys2Proof.Machine
end

section
/-! PROOFS. Runs (47 R108 to R112): the turn of the loop, the fuel, what a run leaves at its end, and the run that follows one. -/

namespace Sys2Proof.Machine

variable {s t : State}

/-! ## The turn of the loop and the fuel -/

/-- Settles O41: `Step()` commits and the run goes on, or gives the result the run ends with. -/
theorem stepIsOneTurnOfTheRun : Obligations.StepIsOneTurnOfTheRun := by
  intro s hf hp
  rw [step_eq_conclude hf hp]
  cases hc : coreStep s with
  | ok t =>
    obtain ⟨i, -, hi⟩ := coreStep_ok.1 hc
    exact .inl ⟨t, rfl, instrStep_ok_status hi, run_succ_ok hc⟩
  | error e =>
    have hend : s.endRun e = { s with status := (e.result s).status } := s.endRun_eq e
    exact .inr ⟨e.result s, by rw [conclude_error, hend], fun n => by rw [run_succ_error hc, hend]⟩

/-- Further fuel does not change the end of a run (47 R111). -/
theorem run_add {n : Nat} {x : RunResult × State} (h : run n s = some x) (k : Nat) : run (n + k) s = some x := by
  induction n generalizing s with
  | zero => cases h
  | succ n ih =>
    rw [Nat.succ_add]
    cases hc : coreStep s with
    | ok t => rw [run_succ_ok hc] at h ⊢; exact ih h
    | error e => rw [run_succ_error hc] at h ⊢; exact h

/-- Settles O45: under the greater of two fuels both ends are the end of the same run. -/
theorem runHasAtMostOneEnd : Obligations.RunHasAtMostOneEnd := by
  rintro s r r' t t' ⟨n, h⟩ ⟨n', h'⟩
  have heq := (run_add h n').symm.trans (Nat.add_comm n n' ▸ run_add h' n)
  cases heq
  exact ⟨rfl, rfl⟩

/-! ## The instruction that ends a run -/

theorem fetch_ok_word {i : Instr} (h : fetch s = .ok i) : s.mem.read s.pc = i.form.word := by
  obtain ⟨f, hf, hcells⟩ := bind_eq_ok.1 h
  obtain ⟨_, -, hi⟩ := bind_eq_ok.1 hcells
  cases hi
  rw [Form.instr_form]
  exact decodeWord_ok (decodeAt_ok.1 hf)

/-- An end of a run other than a fault is that of the fetched instruction (47 R106). -/
theorem coreStep_error_of_not_fault {e : Stop} (h : coreStep s = .error e) (he : ∀ c info, e ≠ .fault c info) :
    ∃ i, fetch s = .ok i ∧ instrStep i s = .error e := by
  refine (coreStep_error.1 h).resolve_left fun hfetch => ?_
  obtain ⟨c, info, hfault⟩ := fetch_error_fault hfetch
  exact he c info hfault

/-- Only a `HLT` halts, and its word is 99 (46 R103). -/
theorem coreStep_halted (h : coreStep s = .error .halted) : s.mem.read s.pc = 99 := by
  obtain ⟨i, hfetch, hi⟩ := coreStep_error_of_not_fault h nofun
  obtain rfl : i = .hlt := by
    rcases instrStep_error hi with ⟨_, _, he, -⟩ | ⟨_, he, -⟩ | ⟨_, he, -⟩ | ⟨he, -⟩ | ⟨he, -⟩ | ⟨-, hhlt⟩
    iterate 5 · cases he
    exact hhlt
  exact fetch_ok_word hfetch

/-- Whether and where a write target resolves depends on `rb` alone (40 R72). -/
theorem writeAddr_congr {d : Target} (h : s.rb = t.rb) : writeAddr d s = writeAddr d t := by
  rw [writeAddr, writeAddr, effAddr, effAddr, h]

/-- A pending `IN`: its address resolves and there is no value for it (42 R85). -/
def State.pendingInput (s : State) (d : Target) (wa : Nat) : Prop :=
  fetch s = .ok (.inp d) ∧ writeAddr d s = .ok wa ∧ s.inq = []

/-- What suspends a run is a pending `IN` (42 R85). -/
theorem coreStep_awaitingInput (h : coreStep s = .error .awaitingInput) : ∃ d wa, s.pendingInput d wa := by
  obtain ⟨i, hfetch, hi⟩ := coreStep_error_of_not_fault h nofun
  rcases instrStep_error hi with ⟨_, _, he, -⟩ | ⟨_, he, -⟩ | ⟨_, he, -⟩ | ⟨he, -⟩ | ⟨-, ⟨d, rfl⟩, hq⟩ | ⟨he, -⟩
  iterate 4 · cases he
  · cases hw : writeAddr d s with
    | ok wa => exact ⟨d, wa, hfetch, hw, hq⟩
    | error e =>
      obtain ⟨_, _, rfl, -⟩ := effAddr_error hw
      cases (inpStep_of_unresolved hw).symm.trans hi
  · cases he

theorem State.pendingInput.coreStep {d : Target} {wa : Nat} (h : s.pendingInput d wa) : coreStep s = .error .awaitingInput := by
  obtain ⟨hfetch, hw, hq⟩ := h
  exact (coreStep_of_fetch hfetch).trans (inpStep_of_nil hw hq)

/-- The end of a run leaves the `IN` pending (47 R109). -/
theorem State.pendingInput.endRun {d : Target} {wa : Nat} (h : s.pendingInput d wa) (e : Stop) :
    (s.endRun e).pendingInput d wa := by
  obtain ⟨hfetch, hw, hq⟩ := h
  exact ⟨(fetch_congr (s.endRun_mem e) (s.endRun_pc e)).trans hfetch, (writeAddr_congr (s.endRun_rb e)).trans hw,
    (s.endRun_inq e).trans hq⟩

/-! ## The state at the end of a run -/

/-- Every run that ends was ended by an instruction (47 R108). -/
theorem run_end {n : Nat} {r : RunResult} (h : run n s = some (r, t)) :
    ∃ u e, coreStep u = .error e ∧ r = e.result u ∧ t = u.endRun e := by
  obtain ⟨u, e, -, hend⟩ := run_induction (P := fun _ => True) (fun _ _ _ _ => trivial) trivial h
  exact ⟨u, e, hend⟩

theorem run_status {n : Nat} {r : RunResult} (h : run n s = some (r, t)) : t.status = r.status := by
  obtain ⟨u, e, -, rfl, rfl⟩ := run_end h
  exact u.endRun_status e

theorem run_halted {n : Nat} (h : run n s = some (.halted, t)) : t.mem.read t.pc = 99 := by
  obtain ⟨u, e, herr, hr, rfl⟩ := run_end h
  cases e with
  | halted => rw [u.endRun_mem, u.endRun_pc]; exact coreStep_halted herr
  | awaitingInput | fault => cases hr

theorem run_awaitingInput {n : Nat} (h : run n s = some (.awaitingInput, t)) : ∃ d wa, t.pendingInput d wa := by
  obtain ⟨u, e, herr, hr, rfl⟩ := run_end h
  cases e with
  | awaitingInput =>
    obtain ⟨d, wa, hpending⟩ := coreStep_awaitingInput herr
    exact ⟨d, wa, hpending.endRun _⟩
  | halted | fault => cases hr

/-- Settles O42: the state at the end differs in `status` alone from the one the last instruction was fetched in. -/
theorem runEndsAtTheInstructionThatEndedIt : Obligations.RunEndsAtTheInstructionThatEndedIt := by
  intro n s r t h
  refine ⟨run_status h, ?_, ?_, ?_⟩
  · rintro rfl
    exact run_halted h
  · rintro rfl
    obtain ⟨d, wa, hfetch, -, hq⟩ := run_awaitingInput h
    exact ⟨hq, d, hfetch⟩
  · rintro record rfl
    obtain ⟨u, e, -, hr, rfl⟩ := run_end h
    cases e with
    | fault c info => cases hr; exact ⟨rfl, rfl⟩
    | awaitingInput | halted => cases hr

/-! ## The next run -/

/-- A core that ended a run as its next instruction would end it again responds so at once, unchanged (47 R109, R110). -/
theorem runCommand_repeats {e : Stop} {r : RunResult} (hc : coreStep t = .error e) (hr : e.result t = r) (ht : t.status = r.status)
    (hf : t.isFaulted = false) (m : Nat) : runCommand (m + 1) t = some (.result r, t) := by
  have hend : t.endRun e = t := by rw [State.endRun_eq, hr, ← ht]; rfl
  rw [runCommand_succ_error hf hc, hr, hend]

/-- Settles O43: the instruction that ended the run is still at `pc`, and ends the next run likewise. -/
theorem endedRunRepeatsItsResult : Obligations.EndedRunRepeatsItsResult := by
  rintro n s r t h (rfl | rfl) m <;> have ht := run_status h <;>
    have hf : t.isFaulted = false := (State.not_isFaulted_iff t).2 fun _ => by rw [ht]; exact nofun
  · exact runCommand_repeats (coreStep_of_read_hlt (run_halted h)) rfl ht hf m
  · obtain ⟨d, wa, hpending⟩ := run_awaitingInput h
    exact runCommand_repeats hpending.coreStep rfl ht hf m

/-- Settles O44: the value added is the only one in the queue, and the pending `IN` takes it. -/
theorem resumeCompletesThePendingInput : Obligations.ResumeCompletesThePendingInput := by
  intro n s t v hs h hv hp
  have ht : t.Inv := run_keeps_inv hs h
  have hf : t.isFaulted = false := (State.not_isFaulted_iff t).2 fun _ => by rw [run_status h]; exact nofun
  obtain ⟨d, wa, hfetch, hw, hq⟩ := run_awaitingInput h
  have hadd : operate (.addInput v) t = (.done, t.setInq [v]) := by rw [operate_addInput hf hv, hq, List.nil_append]
  have hfetch' : fetch (t.setInq [v]) = .ok (.inp d) := (fetch_congr rfl rfl).trans hfetch
  have hw' : writeAddr d (t.setInq [v]) = .ok wa := (writeAddr_congr rfl).trans hw
  have hq' : (t.setInq [v]).inq = v :: t.inq := by rw [hq]; rfl
  obtain ⟨u, hexec, hread, hframe, -, hu⟩ := exec_of_store (i := .inp d) (u := (t.setInq [v]).setInq t.inq) ht.memWf
    (inpStep_ok.2 ⟨wa, v, t.inq, hw', hq', hp, rfl⟩)
  have hstep : step (t.setInq [v]) = .next u := (step_of_fetch (s := t.setInq [v]) hf ht.pc hfetch').trans hexec
  exact ⟨d, wa, _, u, hfetch, hw, hadd, hstep, hread, hframe, hu⟩

end Sys2Proof.Machine
end

section
/-! PROOFS. The fault record (60 R151): it addresses the core's `pc` after every step and every command, and its code and class. -/

namespace Sys2Proof.Machine

variable {s t : State}

theorem State.recordMatches_of_not_faulted (h : s.isFaulted = false) : s.recordMatches :=
  fun r hr => absurd hr ((State.not_isFaulted_iff s).1 h r)

/-- Fault entry writes the record of the state it leaves (60 R160). -/
theorem State.endRun_recordMatches (s : State) (e : Stop) : (s.endRun e).recordMatches := by
  intro r hr
  obtain ⟨c, info, rfl, rfl⟩ := State.endRun_faulted hr
  exact ⟨rfl, rfl⟩

/-- An unfaulted core records no fault by an operation, and a faulted one changes only by a reset (60 R162). -/
theorem operate_recordMatches (hs : s.recordMatches) (o : Operation) : (operate o s).2.recordMatches := by
  by_cases hreinit : ∃ img, o = .reinit img
  · obtain ⟨img, rfl⟩ := hreinit
    rw [operate_reinit]
    by_cases himg : legalImage img = true
    · rw [reinitOp_of_legal himg]; exact State.recordMatches_of_not_faulted rfl
    · rw [reinitOp_of_not_legal himg]; exact hs
  · have hne : ∀ img, o ≠ .reinit img := fun img ho => hreinit ⟨img, ho⟩
    cases hf : s.isFaulted with
    | true => rw [operate_state_of_faulted hf hne]; exact hs
    | false =>
      obtain ⟨-, -, hstatus⟩ := operationsLeaveControlState o s hne
      refine State.recordMatches_of_not_faulted ((State.not_isFaulted_iff _).2 fun r => ?_)
      rw [hstatus]
      exact (State.not_isFaulted_iff s).1 hf r

/-- Settles O40: a record is written by the end of a run alone, and nothing but a reset changes the core after that. -/
theorem faultRecordMatchesTheCore : Obligations.FaultRecordMatchesTheCore := by
  refine ⟨fun s t h => ?_, fun fuel c s r t hs h => ?_⟩
  · obtain ⟨hf, -, hok | ⟨e, -, rfl⟩⟩ := step_eq_next h
    · obtain ⟨i, -, hi⟩ := coreStep_ok.1 hok
      exact State.recordMatches_of_not_faulted ((instrStep_ok_isFaulted hi).trans hf)
    · exact s.endRun_recordMatches e
  · cases c with
    | run =>
      obtain ⟨-, -, rfl⟩ | ⟨-, res, hrun, -⟩ := runCommand_eq_some.1 h
      · exact hs
      · obtain ⟨u, e, -, -, rfl⟩ := run_end hrun
        exact u.endRun_recordMatches e
    | op o =>
      obtain rfl := command_op_state h
      exact operate_recordMatches hs o

/-- Settles O37: the code and the class of a record are those of its cause, row by row. -/
theorem faultCodesAndClasses : Obligations.FaultCodesAndClasses := by
  intro pc word info code cls cause h
  change cause.code = code ∧ cause.faultClass = cls
  simp only [List.cons_append, List.nil_append, List.mem_cons, Prod.mk.injEq, List.not_mem_nil, or_false] at h
  rcases h with h | h | h | h | h | h | h | h | h | h <;> obtain ⟨rfl, rfl, rfl⟩ := h <;> exact ⟨rfl, rfl⟩

end Sys2Proof.Machine
end

section
/-! PROOFS. Several cores (48 R130, R131), the ports (R134), and what the host can see of a core (60 R168). -/

namespace Sys2Proof.Machine

variable {s t : State}

/-! ## Several cores -/

/-- A command to core `k` answers as that core alone does, and leaves there what it leaves of that core (48 R131). -/
theorem System.command_at (fuel k : Nat) (c : Command) (cores : System) :
    (System.command fuel k c cores).map (fun x => (x.1, x.2[k]?)) =
      cores[k]?.bind fun s => (Machine.command fuel c s).map fun x => (x.1, some x.2) := by
  unfold System.command
  cases hk : cores[k]? with
  | none => rfl
  | some s =>
    obtain ⟨hlt, -⟩ := List.getElem?_eq_some_iff.1 hk
    have hat (t : State) : (cores.set k t ++ c.created s)[k]? = some t := by
      rw [List.getElem?_append_left (by simpa using hlt), List.getElem?_set_self hlt]
    simp only [Option.map_map, Option.bind_some]
    exact congrArg (Option.map · _) (funext fun x => by simp [hat])

/-- What an operation on core `k` answers and leaves, where there is such a core (48 R130). -/
theorem System.command_op {k : Nat} {o : Operation} {cores : System} {r : Response} (hk : cores[k]? = some s)
    (h : operate o s = (r, t)) (fuel : Nat) :
    System.command fuel k (.op o) cores = some (r, cores.set k t ++ o.created s) := by
  simp [System.command, Machine.command, Command.created, hk, h]

/-- A core written back unchanged. -/
theorem System.set_same {k : Nat} {cores : System} (hk : cores[k]? = some s) : cores.set k s = cores := by
  obtain ⟨hlt, rfl⟩ := List.getElem?_eq_some_iff.1 hk
  exact List.set_getElem_self hlt

/-- A command to core `k` leaves every other core of the system (48 R131). -/
theorem System.command_other {fuel k j : Nat} {c : Command} {cores cores' : System} {r : Response}
    (h : System.command fuel k c cores = some (r, cores')) (hj : j ≠ k) (hlt : j < cores.length) : cores'[j]? = cores[j]? := by
  unfold System.command at h
  cases hk : cores[k]? with
  | none => rw [hk] at h; cases h
  | some s =>
    rw [hk] at h
    obtain ⟨⟨r', t⟩, -, heq⟩ := Option.map_eq_some_iff.1 h
    cases heq
    rw [List.getElem?_append_left (by simpa using hlt), List.getElem?_set_ne hj.symm]

/-- Settles O52: a command answers from its own core and writes back that one alone. -/
theorem coresAreIndependent : Obligations.CoresAreIndependent := by
  refine ⟨fun fuel k cores s hk hf => ?_, fun fuel k cores s hk hf => ?_, fun _ _ _ _ _ _ h _ => System.command_other h,
    fun fuel k c cores others heq => ?_⟩
  · obtain ⟨hdone, hcreated⟩ := clone_of_not_faulted hf
    rw [System.command_op hk hdone, hcreated, System.set_same hk]
  · rw [System.command_op hk (operate_of_faulted hf rfl), Operation.created_of_faulted hf, System.set_same hk, List.append_nil]
  · rw [System.command_at, System.command_at, heq]

/-! ## The ports -/

/-- While a run is in progress no command is accepted (48 R120, R134). -/
theorem Port.present_of_busy {p : Port} (h : p.busy = true) (c : Command) : Port.present c p = (.notAccepted, p) := if_pos h

theorem Port.present_run (hf : s.isFaulted = false) : Port.present .run ⟨s, false⟩ = (.accepted, ⟨s, true⟩) := by
  simp [Port.present, hf]

theorem Port.turn_of_ok (h : coreStep s = .ok t) : Port.turn ⟨s, true⟩ = (none, ⟨t, true⟩) := by
  simp [Port.turn, h]

theorem Port.turn_of_error {e : Stop} (h : coreStep s = .error e) :
    Port.turn ⟨s, true⟩ = (some (e.result s), ⟨s.endRun e, false⟩) := by
  simp [Port.turn, h]

/-- The port takes the turns of `Run()`: busy until the one that ends the run, which responds with its result (47 R108, 48 R134). -/
theorem Port.turns_of_run {n : Nat} {r : RunResult} (h : run n s = some (r, t)) :
    ∃ k < n, (∀ j ≤ k, ((fun p => (Port.turn p).2)^[j] ⟨s, true⟩).busy = true) ∧
      Port.turn ((fun p => (Port.turn p).2)^[k] ⟨s, true⟩) = (some r, ⟨t, false⟩) := by
  induction n generalizing s with
  | zero => cases h
  | succ n ih =>
    cases hc : coreStep s with
    | error e =>
      rw [run_succ_error hc] at h
      cases h
      refine ⟨0, Nat.succ_pos n, fun j hj => ?_, Port.turn_of_error hc⟩
      obtain rfl := Nat.le_zero.1 hj
      rfl
    | ok u =>
      rw [run_succ_ok hc] at h
      obtain ⟨k, hk, hbusy, hturn⟩ := ih h
      have hfirst (j : Nat) : (fun p => (Port.turn p).2)^[j + 1] ⟨s, true⟩ = (fun p => (Port.turn p).2)^[j] ⟨u, true⟩ := by
        rw [Function.iterate_succ_apply, Port.turn_of_ok hc]
      refine ⟨k + 1, Nat.succ_lt_succ hk, fun j hj => ?_, by rw [hfirst, hturn]⟩
      cases j with
      | zero => rfl
      | succ j => rw [hfirst]; exact hbusy j (Nat.le_of_succ_le_succ hj)

/-- Settles O53: `RUN` is accepted, and the turns that follow are those of `Port.turns_of_run`. -/
theorem busyPortRunsToTheRunsResult : Obligations.BusyPortRunsToTheRunsResult := by
  intro n s r t hf h
  obtain ⟨k, hk, hbusy, hturn⟩ := Port.turns_of_run h
  exact ⟨k, hk, Port.present_run hf, fun j hj => ⟨hbusy j hj, Port.present_of_busy (hbusy j hj)⟩, hturn⟩

/-! ## What the host can see -/

/-- No response of an operation depends on `pc` or `rb` (60 R168). -/
theorem operate_response_congr (o : Operation) (s : State) (pc : Nat) (rb : Word) :
    (operate o { s with pc := pc, rb := rb }).1 = (operate o s).1 := by
  have hperform : (perform o { s with pc := pc, rb := rb }).1 = (perform o s).1 := by
    cases o with
    | reinit img => simp only [perform, reinitOp, refuseArgument, apply_ite Prod.fst]
    | read a => simp only [perform, readOp, refuseArgument, apply_ite Prod.fst]
    | write a v => simp only [perform, writeOp, refuseArgument, apply_ite Prod.fst]
    | addInput v => simp only [perform, addInputOp, refuseArgument, apply_ite Prod.fst]
    | takeLastOutput => simp only [perform, takeLastOp]; cases s.outlog.getLast? <;> rfl
    | outputs | drainOutputs | clone | status => rfl
  have haccepted : o.accepted { s with pc := pc, rb := rb } = o.accepted s := rfl
  simp only [operate, haccepted, apply_ite Prod.fst, hperform]

/-- A run responds with its three results, a fault with the record that `status` then holds (47 R108). -/
theorem run_result_cases {n : Nat} {res : RunResult} (h : run n s = some (res, t)) :
    res = .awaitingInput ∨ res = .halted ∨ ∃ record, res = .fault record ∧ t.status = .faulted record := by
  have ht := run_status h
  cases res with
  | awaitingInput => exact .inl rfl
  | halted => exact .inr (.inl rfl)
  | fault record => exact .inr (.inr ⟨record, rfl, ht⟩)

/-- Settles O54: the tests before a response read `status` and `busy`, and the responses themselves show neither `pc` nor `rb`. -/
theorem responsesDoNotShowPcOrRelativeBase : Obligations.ResponsesDoNotShowPcOrRelativeBase := by
  refine ⟨operate_response_congr, fun c s pc rb busy => ?_, fun fuel s t r h => ?_⟩
  · cases busy with
    | true => rfl
    | false =>
      cases c with
      | run =>
        have hf : ({ s with pc := pc, rb := rb } : State).isFaulted = s.isFaulted := rfl
        simp only [Port.present, Bool.false_eq_true, if_false, hf, apply_ite Prod.fst]
      | op o => exact congrArg Answer.response (operate_response_congr o s pc rb)
  · obtain ⟨-, rfl, -⟩ | ⟨-, res, hrun, rfl⟩ := runCommand_eq_some.1 h
    · exact .inl rfl
    · obtain rfl | rfl | ⟨record, rfl, ht⟩ := run_result_cases hrun
      · exact .inr (.inl rfl)
      · exact .inr (.inr (.inl rfl))
      · exact .inr (.inr (.inr ⟨record, rfl, ht⟩))

end Sys2Proof.Machine
end
